-- ==== Sys2Proof/Word.lean ====
section
/-! DEFINITION. The bit-vector types of the decoder block: the 32-bit instruction word (R60), the byte of the input file (R42),
the 5-bit register code (R22) and the 4-bit condition code (R48). -/

namespace Sys2Proof

/-- One instruction word, bits 31 (most significant) down to 0 (R8, R60). -/
abbrev Word := BitVec 32

/-- One byte of the input file (R42). -/
abbrev Byte := BitVec 8

/-- A register operand code, 0..31 (R6, R22): a code, never the value of a register. -/
abbrev RegCode := BitVec 5

/-- A condition code, 0..15 (R6, R48). -/
abbrev CondCode := BitVec 4

end Sys2Proof
end

