-- ==== Sys2Proof/Config.lean ====
section
/-! DEFINITION. What is fixed for the machine before its first word (R6, R7, R27): the types of the opcode ROM, of the
condition-code ROM and of the label counter's width. The default contents stand in Decode.lean. -/

namespace Sys2Proof

/-- The four opcode field widths a probe can use (R47, R61): 11, 10, 8 and 6 bits. -/
inductive OpWidth where
  | w11 | w10 | w8 | w6
  deriving DecidableEq, Repr

/-- The four formats (R61, R73), one per opcode width. -/
inductive Format where
  | r | i | cb | b
  deriving DecidableEq, Repr

/-- One row of the opcode ROM: a bit pattern of a given width, with a mnemonic (R47). The format is the width's tag and is
never stored beside it (R73). -/
structure OpcodeEntry where
  width : OpWidth
  value : Nat
  mnem  : String
  deriving DecidableEq, Repr

/-- The opcode ROM's contents (R47): at most one entry for each (width, value). -/
abbrev OpcodeRom := List OpcodeEntry

/-- The condition-code ROM's contents (R48): one string, possibly empty, at each of the 16 codes. -/
abbrev CondRom := Vector String 16

/-- The block's configuration (R6, R7). `labelW` is the label counter's width in a finite realisation and `none` for the
unbounded counter (R20, 92_eei_decisions.md D8). -/
structure Config where
  opcodeRom : OpcodeRom
  condRom   : CondRom
  labelW    : Option Nat
  deriving DecidableEq, Repr

end Sys2Proof
end

