-- ==== Sys2Proof/Syntax.lean ====
section
/-! DEFINITION. The instructions of spec/opcode_table.json, one constructor per row, and the operand shapes (R77). -/

namespace Sys2Proof

/-- The operand shapes (R77). -/
inductive Shape where
  | threeRegister | singleRegister | dualRegisterNoOffset | shiftImmediate | memoryOffset
  | aluImmediate | conditionalBranch | unconditionalBranch | noOperands
  deriving DecidableEq, Repr

/-- A decoded word, one constructor per row of the opcode table. Register operands are 5-bit codes, numeric operands are the
integers of R68 (already extended), and `unread` holds the bits below the opcode that the row's shape does not read (R69):
the structured record of R107 shows them, so an instruction keeps every bit of its word. -/
inductive Instr where
  -- R format, ThreeRegister (R122 to R128)
  | add  (rd rn rm : RegCode) (unread : BitVec 6)
  | and  (rd rn rm : RegCode) (unread : BitVec 6)
  | eor  (rd rn rm : RegCode) (unread : BitVec 6)
  | orr  (rd rn rm : RegCode) (unread : BitVec 6)
  | sub  (rd rn rm : RegCode) (unread : BitVec 6)
  | subs (rd rn rm : RegCode) (unread : BitVec 6)
  | mul  (rd rn rm : RegCode) (unread : BitVec 6)
  -- R format, SingleRegister (R130)
  | br   (rn : RegCode) (unreadHigh : BitVec 11) (unreadLow : BitVec 5)
  -- R format, ShiftImmediate (R134, R135)
  | lsl  (rd rn : RegCode) (shamt : Nat) (unread : BitVec 5)
  | lsr  (rd rn : RegCode) (shamt : Nat) (unread : BitVec 5)
  -- R format, DualRegisterNoOffset (R132)
  | prnt (rn rd : RegCode) (unread : BitVec 11)
  -- R format, MemoryOffset (R137, R138)
  | ldur (rt rn : RegCode) (offset : Int) (unread : BitVec 2)
  | stur (rt rn : RegCode) (offset : Int) (unread : BitVec 2)
  -- R format, NoOperands (R140 to R142)
  | prnl (unread : BitVec 21)
  | dump (unread : BitVec 21)
  | halt (unread : BitVec 21)
  -- I format, ALUImmediate (R162 to R167)
  | addi  (rd rn : RegCode) (imm : Int)
  | andi  (rd rn : RegCode) (imm : Int)
  | eori  (rd rn : RegCode) (imm : Int)
  | orri  (rd rn : RegCode) (imm : Int)
  | subi  (rd rn : RegCode) (imm : Int)
  | subis (rd rn : RegCode) (imm : Int)
  -- CB format, ConditionalBranch (R183 to R185)
  | cbz   (offset : Int) (unread : BitVec 5)
  | cbnz  (offset : Int) (unread : BitVec 5)
  | bCond (cond : CondCode) (offset : Int) (unread : BitVec 1)
  -- B format, UnconditionalBranch (R202, R203)
  | b  (offset : Int)
  | bl (offset : Int)
  deriving DecidableEq, Repr

/-- Why bytes give no instruction: fewer than four of them remain (R43), or no probe of the word hits (R75). -/
inductive Reject where
  | partialWord
  | illegalWord (w : Word)
  deriving DecidableEq, Repr

end Sys2Proof
end

