-- ==== Sys2Proof/WellFormed.lean ====
section
/-! DEFINITION. When an instruction is one that some word encodes: every numeric operand lies in the value range R68 gives its
field. Register codes, condition codes and unread bits are fields of their exact width, so they need no check. -/

namespace Sys2Proof

/-- A signed operand of `n` bits: `-2^(n-1) .. 2^(n-1) - 1` (R9, R68). -/
def fitsSigned (n : Nat) (v : Int) : Bool :=
  decide (-(2 ^ (n - 1) : Int) ≤ v) && decide (v < (2 ^ (n - 1) : Int))

/-- An unsigned operand of `n` bits: `0 .. 2^n - 1` (R9, R68). -/
def fitsUnsigned (n : Nat) (v : Nat) : Bool :=
  decide (v < 2 ^ n)

/-- Every numeric operand is in its field's value range (R68). -/
def Instr.wf : Instr → Bool
  | .add _ _ _ _ | .and _ _ _ _ | .eor _ _ _ _ | .orr _ _ _ _ | .sub _ _ _ _ | .subs _ _ _ _ | .mul _ _ _ _ => true
  | .br _ _ _ | .prnt _ _ _ | .prnl _ | .dump _ | .halt _ => true
  | .lsl _ _ shamt _ | .lsr _ _ shamt _ => fitsUnsigned 6 shamt
  | .ldur _ _ offset _ | .stur _ _ offset _ => fitsSigned 9 offset
  | .addi _ _ imm | .andi _ _ imm | .eori _ _ imm | .orri _ _ imm | .subi _ _ imm | .subis _ _ imm => fitsSigned 12 imm
  | .cbz offset _ | .cbnz offset _ | .bCond _ offset _ => fitsSigned 19 offset
  | .b offset | .bl offset => fitsSigned 26 offset

end Sys2Proof
end

