-- ==== Sys2Proof/Decode.lean ====
section
/-! DEFINITION. From bits to instructions and back: the field extractor (R61 to R68), the two ROMs' default contents (R72, R80),
classification by the four probes (R70, R71, R73), the decoder on a word and on bytes, and the encoder. -/

namespace Sys2Proof

/-! ## Fields -/

/-- `w[lo + len - 1 : lo]` (R8). -/
def slice (w : Word) (lo len : Nat) : BitVec len := w.extractLsb' lo len

/-- `sext_N` of R9: the value itself below `2^(N-1)`, and offset by `-2^N` from there on. -/
def sext {n : Nat} (v : BitVec n) : Int :=
  if v.toNat < 2 ^ (n - 1) then (v.toNat : Int) else (v.toNat : Int) - (2 ^ n : Int)

/-- The four candidate opcode fields (R61). -/
def op11 (w : Word) : BitVec 11 := slice w 21 11
def op10 (w : Word) : BitVec 10 := slice w 22 10
def op8 (w : Word) : BitVec 8 := slice w 24 8
def op6 (w : Word) : BitVec 6 := slice w 26 6

/-- The operand slices of R67. They are defined for every word, whatever its format. -/
def rdField (w : Word) : RegCode := slice w 0 5
def rtField (w : Word) : RegCode := slice w 0 5
def rnField (w : Word) : RegCode := slice w 5 5
def rmField (w : Word) : RegCode := slice w 16 5
def shamtField (w : Word) : BitVec 6 := slice w 10 6
def dtoffField (w : Word) : BitVec 9 := slice w 12 9
def immField (w : Word) : BitVec 12 := slice w 10 12
def cboffField (w : Word) : BitVec 19 := slice w 5 19
def boffField (w : Word) : BitVec 26 := slice w 0 26
def condField (w : Word) : CondCode := slice w 0 4

/-! ## The ROMs -/

/-- How many bits a probe's field has (R61). -/
def widthBits : OpWidth → Nat
  | .w11 => 11 | .w10 => 10 | .w8 => 8 | .w6 => 6

/-- The format tag of a width (R73). -/
def formatOf : OpWidth → Format
  | .w11 => .r | .w10 => .i | .w8 => .cb | .w6 => .b

/-- `OpcodeRom(width, value)` (R47, R70): the mnemonic the ROM holds at that width and value. Entries of another width are never
seen. -/
def romLookup (rom : OpcodeRom) (k : OpWidth) (v : Nat) : Option String :=
  (rom.find? fun e => e.width == k && e.value == v).map fun e => e.mnem

/-- A ROM's contents are as R47 says: each value fits its width, and no address holds two entries. -/
def romWf (rom : OpcodeRom) : Bool :=
  rom.all (fun e => decide (e.value < 2 ^ widthBits e.width)) &&
  decide ((rom.map fun e => (e.width, e.value)).Nodup)

/-- The width-11 rows of R72. ADD's pattern is the source's; the others are marked in the spec as from general knowledge
(assumption 1). -/
def romRowsR : OpcodeRom :=
  [ ⟨.w11, 0b10001011000, "ADD"⟩,  ⟨.w11, 0b10001010000, "AND"⟩,  ⟨.w11, 0b11001010000, "EOR"⟩,
    ⟨.w11, 0b10101010000, "ORR"⟩,  ⟨.w11, 0b11001011000, "SUB"⟩,  ⟨.w11, 0b11101011000, "SUBS"⟩,
    ⟨.w11, 0b10011011000, "MUL"⟩,  ⟨.w11, 0b11010110000, "BR"⟩,   ⟨.w11, 0b11010011011, "LSL"⟩,
    ⟨.w11, 0b11010011010, "LSR"⟩,  ⟨.w11, 0b11111111101, "PRNT"⟩, ⟨.w11, 0b11111000010, "LDUR"⟩,
    ⟨.w11, 0b11111000000, "STUR"⟩, ⟨.w11, 0b11111111100, "PRNL"⟩, ⟨.w11, 0b11111111110, "DUMP"⟩,
    ⟨.w11, 0b11111111111, "HALT"⟩ ]

/-- The width-10 rows of R72 (assumption 1). -/
def romRowsI : OpcodeRom :=
  [ ⟨.w10, 0b1001000100, "ADDI"⟩, ⟨.w10, 0b1001001000, "ANDI"⟩, ⟨.w10, 0b1101001000, "EORI"⟩,
    ⟨.w10, 0b1011001000, "ORRI"⟩, ⟨.w10, 0b1101000100, "SUBI"⟩, ⟨.w10, 0b1111000100, "SUBIS"⟩ ]

/-- The width-8 rows of R72 (assumption 1). -/
def romRowsCB : OpcodeRom :=
  [ ⟨.w8, 0b10110100, "CBZ"⟩, ⟨.w8, 0b10110101, "CBNZ"⟩, ⟨.w8, 0b01010100, "B."⟩ ]

/-- The width-6 rows of R72. B's pattern is the source's; BL's is marked in the spec as from general knowledge (assumption 1). -/
def romRowsB : OpcodeRom :=
  [ ⟨.w6, 0b000101, "B"⟩, ⟨.w6, 0b100101, "BL"⟩ ]

/-- The default contents of the opcode ROM (R72). -/
def defaultOpcodeRom : OpcodeRom := romRowsR ++ romRowsI ++ romRowsCB ++ romRowsB

/-- The default contents of the condition-code ROM (R80). Codes 0xE and 0xF are the source's; the others are marked in the spec as
from general knowledge (assumption 2). -/
def defaultCondRom : CondRom :=
  #v["EQ", "NE", "HS", "LO", "MI", "PL", "VS", "VC", "HI", "LS", "GE", "LT", "GT", "LE", "", ""]

/-- The configuration of the Mad1232/Disassembler block: the defaults of R6, with the unbounded label counter (assumption 3). -/
def device : Config where
  opcodeRom := defaultOpcodeRom
  condRom   := defaultCondRom
  labelW    := none

/-! ## Classification -/

/-- The four probes in the order 11, 10, 8, 6; the first hit decides mnemonic and format (R71, R73). -/
def classify (rom : OpcodeRom) (w : Word) : Option (String × Format) :=
  match romLookup rom .w11 (op11 w).toNat with
  | some m => some (m, formatOf .w11)
  | none =>
    match romLookup rom .w10 (op10 w).toNat with
    | some m => some (m, formatOf .w10)
    | none =>
      match romLookup rom .w8 (op8 w).toNat with
      | some m => some (m, formatOf .w8)
      | none =>
        match romLookup rom .w6 (op6 w).toNat with
        | some m => some (m, formatOf .w6)
        | none => none

/-- The shape of a hit (R78): every I-format hit is ALUImmediate, the rest go by mnemonic, and any other mnemonic has no
operands. -/
def shapeOf (m : String) (fmt : Format) : Shape :=
  if fmt = .i then .aluImmediate
  else if m ∈ ["ADD", "AND", "EOR", "ORR", "SUB", "SUBS", "MUL"] then .threeRegister
  else if m = "BR" then .singleRegister
  else if m = "PRNT" then .dualRegisterNoOffset
  else if m ∈ ["LSL", "LSR"] then .shiftImmediate
  else if m ∈ ["LDUR", "STUR"] then .memoryOffset
  else if m ∈ ["CBZ", "CBNZ", "B."] then .conditionalBranch
  else if m ∈ ["B", "BL"] then .unconditionalBranch
  else .noOperands

/-! ## The decoder -/

/-- The instruction of a word whose hit has the mnemonic `m`: the row's operands cut out of the word (R62 to R68), with the unread
bits beside them. A mnemonic outside the table of 27 (possible only in another ROM) is no `Instr`. -/
def instrOf (m : String) (w : Word) : Option Instr :=
  match m with
  | "ADD"   => some (.add  (rdField w) (rnField w) (rmField w) (shamtField w))
  | "AND"   => some (.and  (rdField w) (rnField w) (rmField w) (shamtField w))
  | "EOR"   => some (.eor  (rdField w) (rnField w) (rmField w) (shamtField w))
  | "ORR"   => some (.orr  (rdField w) (rnField w) (rmField w) (shamtField w))
  | "SUB"   => some (.sub  (rdField w) (rnField w) (rmField w) (shamtField w))
  | "SUBS"  => some (.subs (rdField w) (rnField w) (rmField w) (shamtField w))
  | "MUL"   => some (.mul  (rdField w) (rnField w) (rmField w) (shamtField w))
  | "BR"    => some (.br   (rnField w) (slice w 10 11) (slice w 0 5))
  | "LSL"   => some (.lsl  (rdField w) (rnField w) (shamtField w).toNat (slice w 16 5))
  | "LSR"   => some (.lsr  (rdField w) (rnField w) (shamtField w).toNat (slice w 16 5))
  | "PRNT"  => some (.prnt (rnField w) (rdField w) (slice w 10 11))
  | "LDUR"  => some (.ldur (rtField w) (rnField w) (sext (dtoffField w)) (slice w 10 2))
  | "STUR"  => some (.stur (rtField w) (rnField w) (sext (dtoffField w)) (slice w 10 2))
  | "PRNL"  => some (.prnl (slice w 0 21))
  | "DUMP"  => some (.dump (slice w 0 21))
  | "HALT"  => some (.halt (slice w 0 21))
  | "ADDI"  => some (.addi  (rdField w) (rnField w) (sext (immField w)))
  | "ANDI"  => some (.andi  (rdField w) (rnField w) (sext (immField w)))
  | "EORI"  => some (.eori  (rdField w) (rnField w) (sext (immField w)))
  | "ORRI"  => some (.orri  (rdField w) (rnField w) (sext (immField w)))
  | "SUBI"  => some (.subi  (rdField w) (rnField w) (sext (immField w)))
  | "SUBIS" => some (.subis (rdField w) (rnField w) (sext (immField w)))
  | "CBZ"   => some (.cbz  (sext (cboffField w)) (slice w 0 5))
  | "CBNZ"  => some (.cbnz (sext (cboffField w)) (slice w 0 5))
  | "B."    => some (.bCond (condField w) (sext (cboffField w)) (slice w 4 1))
  | "B"     => some (.b  (sext (boffField w)))
  | "BL"    => some (.bl (sext (boffField w)))
  | _       => none

/-- The device's decoder: the instruction of a word, or `none` where the word is illegal (R71, R75). -/
def decodeWord (w : Word) : Option Instr :=
  match classify device.opcodeRom w with
  | some (m, _) => instrOf m w
  | none => none

/-- A word from four bytes of the file in big-endian order (R42). -/
def wordOfBytes (b0 b1 b2 b3 : Byte) : Word := (b0 ++ b1 ++ b2 ++ b3).cast rfl

/-- The four bytes of a word as the file holds them, the one with bits 31:24 first (R42). -/
def bytesOfWord (w : Word) : List Byte := [slice w 24 8, slice w 16 8, slice w 8 8, slice w 0 8]

/-- The first instruction of a byte stream and the bytes after it: 4 bytes are one word (R44, R60), fewer are none (R43). -/
def decodeBytes : List Byte → Except Reject (Instr × List Byte)
  | b0 :: b1 :: b2 :: b3 :: rest =>
    match decodeWord (wordOfBytes b0 b1 b2 b3) with
    | some i => .ok (i, rest)
    | none => .error (.illegalWord (wordOfBytes b0 b1 b2 b3))
  | _ => .error .partialWord

/-- The instruction the decoder reads from the table's word `w` of `nbits` bits, through the byte order of the file. -/
def decodeTableWord (nbits w : Nat) : Option Instr :=
  match decodeBytes (bytesOfWord (BitVec.ofNat 32 (w % 2 ^ nbits))) with
  | .ok (i, _) => some i
  | .error _ => none

/-! ## The encoder -/

/-- An R-format word of a register or shift shape (R62). -/
def packR (op : BitVec 11) (rm : BitVec 5) (shamt : BitVec 6) (rn rd : RegCode) : Word :=
  (op ++ rm ++ shamt ++ rn ++ rd).cast rfl

/-- An R-format word of the memory shape (R63). -/
def packD (op : BitVec 11) (offset : Int) (op2 : BitVec 2) (rn rt : RegCode) : Word :=
  (op ++ BitVec.ofInt 9 offset ++ op2 ++ rn ++ rt).cast rfl

/-- An I-format word (R64). -/
def packI (op : BitVec 10) (imm : Int) (rn rd : RegCode) : Word :=
  (op ++ BitVec.ofInt 12 imm ++ rn ++ rd).cast rfl

/-- A CB-format word (R65). -/
def packCB (op : BitVec 8) (offset : Int) (low : BitVec 5) : Word :=
  (op ++ BitVec.ofInt 19 offset ++ low).cast rfl

/-- A B-format word (R66). -/
def packB (op : BitVec 6) (offset : Int) : Word :=
  (op ++ BitVec.ofInt 26 offset).cast rfl

/-- The word of an instruction: the opcode of its row in R72 over the field layout of its format (R62 to R66). -/
def encode : Instr → Word
  | .add  rd rn rm u => packR 0x458#11 rm u rn rd
  | .and  rd rn rm u => packR 0x450#11 rm u rn rd
  | .eor  rd rn rm u => packR 0x650#11 rm u rn rd
  | .orr  rd rn rm u => packR 0x550#11 rm u rn rd
  | .sub  rd rn rm u => packR 0x658#11 rm u rn rd
  | .subs rd rn rm u => packR 0x758#11 rm u rn rd
  | .mul  rd rn rm u => packR 0x4D8#11 rm u rn rd
  | .br   rn hi lo   => (0x6B0#11 ++ hi ++ rn ++ lo).cast rfl
  | .lsl  rd rn n u  => packR 0x69B#11 u (BitVec.ofNat 6 n) rn rd
  | .lsr  rd rn n u  => packR 0x69A#11 u (BitVec.ofNat 6 n) rn rd
  | .prnt rn rd u    => (0x7FD#11 ++ u ++ rn ++ rd).cast rfl
  | .ldur rt rn o u  => packD 0x7C2#11 o u rn rt
  | .stur rt rn o u  => packD 0x7C0#11 o u rn rt
  | .prnl u          => (0x7FC#11 ++ u).cast rfl
  | .dump u          => (0x7FE#11 ++ u).cast rfl
  | .halt u          => (0x7FF#11 ++ u).cast rfl
  | .addi  rd rn k   => packI 0x244#10 k rn rd
  | .andi  rd rn k   => packI 0x248#10 k rn rd
  | .eori  rd rn k   => packI 0x348#10 k rn rd
  | .orri  rd rn k   => packI 0x2C8#10 k rn rd
  | .subi  rd rn k   => packI 0x344#10 k rn rd
  | .subis rd rn k   => packI 0x3C4#10 k rn rd
  | .cbz   o u       => packCB 0xB4#8 o u
  | .cbnz  o u       => packCB 0xB5#8 o u
  | .bCond c o u     => packCB 0x54#8 o (u ++ c)
  | .b  o            => packB 0x05#6 o
  | .bl o            => packB 0x25#6 o

end Sys2Proof
end

