-- ==== Sys2Proof/Machine/State.lean ====
section
/-! DEFINITION. The state of the decoder block (R25), the host's events and the block's outputs (R100, R101, R107), the state after
reset (R240, R241), and the reasons a step can stop. -/

namespace Sys2Proof.Machine

/-- The run phases (R25, R109). They are no privilege modes (R228). -/
inductive Phase where
  | running | done
  deriving DecidableEq, Repr

/-- What the host presents, one event per step (R100): the next word, the end of input (`End`), or a reset. -/
inductive Event where
  | word (w : Word)
  | endOfInput
  | reset
  deriving DecidableEq, Repr

/-- The closed enumeration of error kinds (R101, R221). The block itself raises `decodeError` only (R220, R223). -/
inductive ErrorKind where
  | decodeError | ioError
  deriving DecidableEq, Repr

/-- The structured decode record (R107). Every field is computed for every decoded word. `dtoff`, `imm`, `cboff` and `boff` are the
sign-extended values, the other operand fields the raw slices. -/
structure DecodedRecord where
  mnem        : String
  fmt         : Format
  shape       : Shape
  label       : Nat
  rd          : RegCode
  rn          : RegCode
  rm          : RegCode
  rt          : RegCode
  shamt       : BitVec 6
  cond        : CondCode
  dtoff       : Int
  imm         : Int
  cboff       : Int
  boff        : Int
  target      : Option Int
  mnemtext    : String
  operandtext : String
  deriving DecidableEq, Repr

/-- One item of output (R100). An error carries the offending word and no label (R221). -/
inductive Output where
  | decoded (d : DecodedRecord)
  | error (k : ErrorKind) (w : Word)
  | line (s : String)
  deriving DecidableEq, Repr

/-- The block's state (R25) between the host's two streams (R40): what the host has presented and the block has not consumed, the
next event first, and what the block has put out, the oldest item first (assumption 12). -/
structure State where
  lc     : Nat
  phase  : Phase
  input  : List Event
  output : List Output
  deriving DecidableEq, Repr

/-- The state after reset: `lc = 1` and `phase = Running` (R240, R241). No event is presented yet and nothing has been put out
(assumption 12). -/
def State.reset : State where
  lc     := 1
  phase  := .running
  input  := []
  output := []

/-- The reasons the machine has no step. Both are safe: the model stops and gives the run no meaning. -/
inductive Fault where
  /-- Raised by `step` where the host has presented no event (R100, R223; assumption 12). Safe. -/
  | noEvent
  /-- Raised by `step` on a `Word` or an `End` in phase `Done`, where R108 and R109 give no step (assumption 11). Safe. -/
  | endOfRun
  deriving DecidableEq, Repr

/-- The reasons a step is refused. -/
inductive Refusal where
  /-- Raised by `exec` for an instruction that has no meaning yet; no arm does. Safe. -/
  | notModelled (mnemonic : String)
  /-- Raised by the commit of a label that a finite label counter cannot hold (92_eei_decisions.md D8, 93 U5; assumption 3). The
  device's counter is unbounded, so its steps never raise it. Safe. -/
  | labelOverflow
  deriving DecidableEq, Repr

end Sys2Proof.Machine
end

