-- ==== Sys2Proof/Machine/Ops.lean ====
section
/-! DEFINITION. The named operations on the state: the two streams, the label commit, taking DecodeError, the end of input and the
reset. There is no return from DecodeError (R225): the next event is handled as if the failing word had not been presented. -/

namespace Sys2Proof.Machine

/-- `lc <- v` (R10). -/
def State.setLc (v : Nat) (s : State) : State := { s with lc := v }

/-- The phase is written by the end of input and by reset only (R25). -/
def State.setPhase (p : Phase) (s : State) : State := { s with phase := p }

/-- What the host has presented. -/
def State.setInput (evs : List Event) (s : State) : State := { s with input := evs }

/-- `emit`: items are appended at the end of the output, and only there (R46). -/
def State.emit (items : List Output) (s : State) : State := { s with output := s.output ++ items }

/-- Whether a label counter of width `labelW` holds the value `v`; the unbounded counter holds every value (R20, D8). -/
def labelFits (labelW : Option Nat) (v : Nat) : Bool :=
  match labelW with
  | none => true
  | some b => decide (v < 2 ^ b)

/-- `dec`: an integer in base 10, no leading zeros, no plus sign, a leading `-` before the digits of a negative one (R86). -/
def dec (i : Int) : String :=
  if i < 0 then "-" ++ Nat.repr i.natAbs else Nat.repr i.natAbs

/-- The output line of a decoded word (R104, R88): one space after the colon, none added before the operand text. -/
def lineOf (d : DecodedRecord) : String :=
  "L" ++ dec d.label ++ ": " ++ d.mnemtext ++ d.operandtext

/-- The outputs of a word that decodes, in the order of R108. -/
def decodedOutputs (d : DecodedRecord) : List Output := [.decoded d, .line (lineOf d)]

/-- The end of a successful transaction: the record and the line go out, then the label commit `lc <- lc + 1` (R105, R108). -/
def commitDecoded (c : Config) (d : DecodedRecord) (s : State) : Host.Outcome State Fault Refusal :=
  if labelFits c.labelW (s.lc + 1) then .next ((s.emit (decodedOutputs d)).setLc (s.lc + 1)) else .refused .labelOverflow

/-- The fixed diagnostic line (R222). -/
def diagnostic : String := "Opcode not found --> Error with program"

/-- The numbering of the error kinds (R221). -/
def errorCode : ErrorKind → Nat
  | .decodeError => 1
  | .ioError => 2

/-- The outputs of a word that does not decode, in the order of R108. -/
def errorOutputs (w : Word) : List Output := [.error .decodeError w, .line diagnostic]

/-- Taking DecodeError (R220, R224): the error record and the diagnostic go out. No state is saved, no mode changes, and `lc` stays. -/
def takeDecodeError (w : Word) (s : State) : Host.Outcome State Fault Refusal := .next (s.emit (errorOutputs w))

/-- `End` ends the run and emits nothing (R109). -/
def endRun (s : State) : Host.Outcome State Fault Refusal := .next (s.setPhase .done)

/-- A `Reset` event: `lc <- 1`, `phase <- Running`, and nothing is emitted (R240). -/
def resetBlock (s : State) : Host.Outcome State Fault Refusal := .next ((s.setLc 1).setPhase .running)

/-- The host presents events after those it has presented already. -/
def State.present (evs : List Event) (s : State) : State := s.setInput (s.input ++ evs)

/-- The host presents `w` as the very next event, to a block in phase `Running`, where a word has a step (R108). -/
def presentWord (w : Word) (s : State) : State := (s.setInput (.word w :: s.input)).setPhase .running

end Sys2Proof.Machine
end

