-- ==== Sys2Proof/Machine/Flags.lean ====
section
/-! DEFINITION. Conditions. The block holds no flags and evaluates no condition (R23): no instruction computes a flag. All it does
with a condition code is to look its suffix up in the condition-code ROM (R48, R82). -/

namespace Sys2Proof.Machine

/-- `CondRom[c]` (R48): every one of the 16 addresses holds a string, so the lookup never fails. -/
def condSuffix (rom : CondRom) (c : CondCode) : String := rom[c.toNat]'c.isLt

/-- The mnemonic text of `B.`: the suffix directly after it (R82, R185; assumption 6). -/
def bCondText (rom : CondRom) (c : CondCode) : String := "B." ++ condSuffix rom c

/-- `mnemtext(m, w)` (R82): the ROM's mnemonic, but for `B.`, whose suffix comes from bits 3:0 (R81; assumption 5). -/
def mnemText (rom : CondRom) (m : String) (w : Word) : String :=
  if m = "B." then bCondText rom (condField w) else m

end Sys2Proof.Machine
end

