-- ==== Sys2Proof/Machine/Operands.lean ====
section
/-! DEFINITION. Every operand form: register names (R84), immediates and labels (R87), the renderer of each of the nine shapes
(R103), the branch target (R106) and the structured record (R107). -/

namespace Sys2Proof.Machine

/-- Register-name translation (R84): codes 28 to 31 have reserved names, the others are `X<code>`. -/
def regname (c : RegCode) : String :=
  if c.toNat = 28 then "SP"
  else if c.toNat = 29 then "FP"
  else if c.toNat = 30 then "LR"
  else if c.toNat = 31 then "XZR"
  else "X" ++ dec c.toNat

/-- An immediate or offset operand (R87). -/
def immText (v : Int) : String := "#" ++ dec v

/-- A label reference (R87). -/
def labelText (n : Int) : String := "L" ++ dec n

/-- ThreeRegister: `Rd, Rn, Rm` (R121). -/
def threeRegisterText (rd rn rm : RegCode) : String := " " ++ regname rd ++ ", " ++ regname rn ++ ", " ++ regname rm

/-- SingleRegister: `Rn` (R129). -/
def singleRegisterText (rn : RegCode) : String := " " ++ regname rn

/-- DualRegisterNoOffset: `Rn, Rd`, in this order (R131). -/
def dualRegisterText (rn rd : RegCode) : String := " " ++ regname rn ++ ", " ++ regname rd

/-- ShiftImmediate: `Rd, Rn, #shamt`, unsigned (R133). -/
def shiftImmediateText (rd rn : RegCode) (shamt : Nat) : String :=
  " " ++ regname rd ++ ", " ++ regname rn ++ ", " ++ immText shamt

/-- MemoryOffset: `Rt, [Rn, #offset]`, the offset unscaled (R136). -/
def memoryOffsetText (rt rn : RegCode) (offset : Int) : String :=
  " " ++ regname rt ++ ", [" ++ regname rn ++ ", " ++ immText offset ++ "]"

/-- ALUImmediate: `Rd, Rn, #imm`, signed for all six mnemonics (R161). -/
def aluImmediateText (rd rn : RegCode) (imm : Int) : String :=
  " " ++ regname rd ++ ", " ++ regname rn ++ ", " ++ immText imm

/-- The target label of a branch: the branch's own label plus its word offset, an integer that is neither checked nor clamped
(R106; assumption 14). -/
def targetLabel (lc : Nat) (offset : Int) : Int := (lc : Int) + offset

/-- ConditionalBranch and UnconditionalBranch: `L<target>` (R182, R201). -/
def branchText (lc : Nat) (offset : Int) : String := " " ++ labelText (targetLabel lc offset)

/-- NoOperands (R139). -/
def noOperandsText : String := ""

/-- `operandtext(s, w, lc)`: the renderer of each shape on a word's slices (R103). Only the two branch shapes read `lc`. -/
def operandText (sh : Shape) (w : Word) (lc : Nat) : String :=
  match sh with
  | .threeRegister => threeRegisterText (rdField w) (rnField w) (rmField w)
  | .singleRegister => singleRegisterText (rnField w)
  | .dualRegisterNoOffset => dualRegisterText (rnField w) (rdField w)
  | .shiftImmediate => shiftImmediateText (rdField w) (rnField w) (shamtField w).toNat
  | .memoryOffset => memoryOffsetText (rtField w) (rnField w) (sext (dtoffField w))
  | .aluImmediate => aluImmediateText (rdField w) (rnField w) (sext (immField w))
  | .conditionalBranch => branchText lc (sext (cboffField w))
  | .unconditionalBranch => branchText lc (sext (boffField w))
  | .noOperands => noOperandsText

/-- The record's target: present for the two branch formats only (R107). -/
def targetOf (fmt : Format) (w : Word) (lc : Nat) : Option Int :=
  match fmt with
  | .cb => some (targetLabel lc (sext (cboffField w)))
  | .b => some (targetLabel lc (sext (boffField w)))
  | .r => none
  | .i => none

/-- The structured decode record (R107): every slice of the word, whatever the shape reads (R67). -/
def recordOf (m : String) (fmt : Format) (sh : Shape) (w : Word) (lc : Nat) (mnemtext operandtext : String) : DecodedRecord where
  mnem        := m
  fmt         := fmt
  shape       := sh
  label       := lc
  rd          := rdField w
  rn          := rnField w
  rm          := rmField w
  rt          := rtField w
  shamt       := shamtField w
  cond        := condField w
  dtoff       := sext (dtoffField w)
  imm         := sext (immField w)
  cboff       := sext (cboffField w)
  boff        := sext (boffField w)
  target      := targetOf fmt w lc
  mnemtext    := mnemtext
  operandtext := operandtext

/-- A successful transaction of the device for the instruction `i` (R102): its record at the own label `lc` (R106), its line, and
the commit. The record's slices are those of the instruction's word (assumption 19). -/
def decodeInstr (m : String) (fmt : Format) (sh : Shape) (mnemtext operandtext : String) (i : Instr) (s : State) :
    Host.Outcome State Fault Refusal :=
  commitDecoded device (recordOf m fmt sh (encode i) s.lc mnemtext operandtext) s

end Sys2Proof.Machine
end

