-- ==== Sys2Proof/Machine/BranchFormat.lean ====
section
/-! DEFINITION. The meanings of the B-format instructions (44_b_format.md, R200 to R203): the target label is formed from `lc` before the
commit (R106), and no branch is taken. -/

namespace Sys2Proof.Machine

/-- B (R202). -/
def execB (offset : Int) (s : State) : Host.Outcome State Fault Refusal :=
  decodeInstr "B" .b .unconditionalBranch "B" (branchText s.lc offset) (.b offset) s

/-- BL (R203). No link register is written. -/
def execBl (offset : Int) (s : State) : Host.Outcome State Fault Refusal :=
  decodeInstr "BL" .b .unconditionalBranch "BL" (branchText s.lc offset) (.bl offset) s

end Sys2Proof.Machine
end

