-- ==== Sys2Proof/Machine/ConditionalFormat.lean ====
section
/-! DEFINITION. The meanings of the CB-format instructions (43_cb_format.md, R180 to R185): the target label is formed from `lc` before the
commit (R106), the branch is never taken and the condition never evaluated. -/

namespace Sys2Proof.Machine

/-- CBZ (R183). The register is not printed (assumption 16). -/
def execCbz (offset : Int) (unread : BitVec 5) (s : State) : Host.Outcome State Fault Refusal :=
  decodeInstr "CBZ" .cb .conditionalBranch "CBZ" (branchText s.lc offset) (.cbz offset unread) s

/-- CBNZ (R184). The register is not printed (assumption 16). -/
def execCbnz (offset : Int) (unread : BitVec 5) (s : State) : Host.Outcome State Fault Refusal :=
  decodeInstr "CBNZ" .cb .conditionalBranch "CBNZ" (branchText s.lc offset) (.cbnz offset unread) s

/-- B.cond, the ROM's `B.` (R185). The reserved codes 0xE and 0xF raise nothing and have the empty suffix (R76). -/
def execBCond (cond : CondCode) (offset : Int) (unread : BitVec 1) (s : State) : Host.Outcome State Fault Refusal :=
  decodeInstr "B." .cb .conditionalBranch (bCondText device.condRom cond) (branchText s.lc offset) (.bCond cond offset unread) s

end Sys2Proof.Machine
end

