-- ==== Sys2Proof/Machine/ImmediateFormat.lean ====
section
/-! DEFINITION. The meanings of the I-format instructions (42_i_format.md, R160 to R167): what the block emits for each of them. -/

namespace Sys2Proof.Machine

/-- ADDI (R162). -/
def execAddi (rd rn : RegCode) (imm : Int) (s : State) : Host.Outcome State Fault Refusal :=
  decodeInstr "ADDI" .i .aluImmediate "ADDI" (aluImmediateText rd rn imm) (.addi rd rn imm) s

/-- ANDI (R163). -/
def execAndi (rd rn : RegCode) (imm : Int) (s : State) : Host.Outcome State Fault Refusal :=
  decodeInstr "ANDI" .i .aluImmediate "ANDI" (aluImmediateText rd rn imm) (.andi rd rn imm) s

/-- EORI (R164). -/
def execEori (rd rn : RegCode) (imm : Int) (s : State) : Host.Outcome State Fault Refusal :=
  decodeInstr "EORI" .i .aluImmediate "EORI" (aluImmediateText rd rn imm) (.eori rd rn imm) s

/-- ORRI (R165). -/
def execOrri (rd rn : RegCode) (imm : Int) (s : State) : Host.Outcome State Fault Refusal :=
  decodeInstr "ORRI" .i .aluImmediate "ORRI" (aluImmediateText rd rn imm) (.orri rd rn imm) s

/-- SUBI (R166). -/
def execSubi (rd rn : RegCode) (imm : Int) (s : State) : Host.Outcome State Fault Refusal :=
  decodeInstr "SUBI" .i .aluImmediate "SUBI" (aluImmediateText rd rn imm) (.subi rd rn imm) s

/-- SUBIS (R167). -/
def execSubis (rd rn : RegCode) (imm : Int) (s : State) : Host.Outcome State Fault Refusal :=
  decodeInstr "SUBIS" .i .aluImmediate "SUBIS" (aluImmediateText rd rn imm) (.subis rd rn imm) s

end Sys2Proof.Machine
end

