-- ==== Sys2Proof/Machine/RegisterFormat.lean ====
section
/-! DEFINITION. The meanings of the R-format instructions (41_r_format.md, R120 to R142): what the block emits for each of them. -/

namespace Sys2Proof.Machine

/-- ADD (R122). -/
def execAdd (rd rn rm : RegCode) (unread : BitVec 6) (s : State) : Host.Outcome State Fault Refusal :=
  decodeInstr "ADD" .r .threeRegister "ADD" (threeRegisterText rd rn rm) (.add rd rn rm unread) s

/-- AND (R123). -/
def execAnd (rd rn rm : RegCode) (unread : BitVec 6) (s : State) : Host.Outcome State Fault Refusal :=
  decodeInstr "AND" .r .threeRegister "AND" (threeRegisterText rd rn rm) (.and rd rn rm unread) s

/-- EOR (R124). -/
def execEor (rd rn rm : RegCode) (unread : BitVec 6) (s : State) : Host.Outcome State Fault Refusal :=
  decodeInstr "EOR" .r .threeRegister "EOR" (threeRegisterText rd rn rm) (.eor rd rn rm unread) s

/-- ORR (R125). -/
def execOrr (rd rn rm : RegCode) (unread : BitVec 6) (s : State) : Host.Outcome State Fault Refusal :=
  decodeInstr "ORR" .r .threeRegister "ORR" (threeRegisterText rd rn rm) (.orr rd rn rm unread) s

/-- SUB (R126). -/
def execSub (rd rn rm : RegCode) (unread : BitVec 6) (s : State) : Host.Outcome State Fault Refusal :=
  decodeInstr "SUB" .r .threeRegister "SUB" (threeRegisterText rd rn rm) (.sub rd rn rm unread) s

/-- SUBS (R127). -/
def execSubs (rd rn rm : RegCode) (unread : BitVec 6) (s : State) : Host.Outcome State Fault Refusal :=
  decodeInstr "SUBS" .r .threeRegister "SUBS" (threeRegisterText rd rn rm) (.subs rd rn rm unread) s

/-- MUL (R128). -/
def execMul (rd rn rm : RegCode) (unread : BitVec 6) (s : State) : Host.Outcome State Fault Refusal :=
  decodeInstr "MUL" .r .threeRegister "MUL" (threeRegisterText rd rn rm) (.mul rd rn rm unread) s

/-- BR (R130). No target label: the branch is register-indirect. -/
def execBr (rn : RegCode) (unreadHigh : BitVec 11) (unreadLow : BitVec 5) (s : State) : Host.Outcome State Fault Refusal :=
  decodeInstr "BR" .r .singleRegister "BR" (singleRegisterText rn) (.br rn unreadHigh unreadLow) s

/-- PRNT (R132). Rn comes first, and both registers are always printed. -/
def execPrnt (rn rd : RegCode) (unread : BitVec 11) (s : State) : Host.Outcome State Fault Refusal :=
  decodeInstr "PRNT" .r .dualRegisterNoOffset "PRNT" (dualRegisterText rn rd) (.prnt rn rd unread) s

/-- LSL (R134). -/
def execLsl (rd rn : RegCode) (shamt : Nat) (unread : BitVec 5) (s : State) : Host.Outcome State Fault Refusal :=
  decodeInstr "LSL" .r .shiftImmediate "LSL" (shiftImmediateText rd rn shamt) (.lsl rd rn shamt unread) s

/-- LSR (R135). -/
def execLsr (rd rn : RegCode) (shamt : Nat) (unread : BitVec 5) (s : State) : Host.Outcome State Fault Refusal :=
  decodeInstr "LSR" .r .shiftImmediate "LSR" (shiftImmediateText rd rn shamt) (.lsr rd rn shamt unread) s

/-- LDUR (R137). The block performs no load. -/
def execLdur (rt rn : RegCode) (offset : Int) (unread : BitVec 2) (s : State) : Host.Outcome State Fault Refusal :=
  decodeInstr "LDUR" .r .memoryOffset "LDUR" (memoryOffsetText rt rn offset) (.ldur rt rn offset unread) s

/-- STUR (R138). The block performs no store. -/
def execStur (rt rn : RegCode) (offset : Int) (unread : BitVec 2) (s : State) : Host.Outcome State Fault Refusal :=
  decodeInstr "STUR" .r .memoryOffset "STUR" (memoryOffsetText rt rn offset) (.stur rt rn offset unread) s

/-- PRNL (R140). -/
def execPrnl (unread : BitVec 21) (s : State) : Host.Outcome State Fault Refusal :=
  decodeInstr "PRNL" .r .noOperands "PRNL" noOperandsText (.prnl unread) s

/-- DUMP (R141). The block dumps nothing. -/
def execDump (unread : BitVec 21) (s : State) : Host.Outcome State Fault Refusal :=
  decodeInstr "DUMP" .r .noOperands "DUMP" noOperandsText (.dump unread) s

/-- HALT (R142). The block goes on to the next word: HALT does not stop it. -/
def execHalt (unread : BitVec 21) (s : State) : Host.Outcome State Fault Refusal :=
  decodeInstr "HALT" .r .noOperands "HALT" noOperandsText (.halt unread) s

end Sys2Proof.Machine
end

