-- ==== Sys2Proof/Machine/Dispatch.lean ====
section
/-! DEFINITION. One arm per constructor of Instr, each a call of that instruction's meaning. -/

namespace Sys2Proof.Machine

def exec (i : Instr) (s : State) : Host.Outcome State Fault Refusal :=
  match i with
  | .add rd rn rm u => Sys2Proof.Machine.execAdd rd rn rm u s
  | .and rd rn rm u => Sys2Proof.Machine.execAnd rd rn rm u s
  | .eor rd rn rm u => Sys2Proof.Machine.execEor rd rn rm u s
  | .orr rd rn rm u => Sys2Proof.Machine.execOrr rd rn rm u s
  | .sub rd rn rm u => Sys2Proof.Machine.execSub rd rn rm u s
  | .subs rd rn rm u => Sys2Proof.Machine.execSubs rd rn rm u s
  | .mul rd rn rm u => Sys2Proof.Machine.execMul rd rn rm u s
  | .br rn hi lo => Sys2Proof.Machine.execBr rn hi lo s
  | .lsl rd rn n u => Sys2Proof.Machine.execLsl rd rn n u s
  | .lsr rd rn n u => Sys2Proof.Machine.execLsr rd rn n u s
  | .prnt rn rd u => Sys2Proof.Machine.execPrnt rn rd u s
  | .ldur rt rn o u => Sys2Proof.Machine.execLdur rt rn o u s
  | .stur rt rn o u => Sys2Proof.Machine.execStur rt rn o u s
  | .prnl u => Sys2Proof.Machine.execPrnl u s
  | .dump u => Sys2Proof.Machine.execDump u s
  | .halt u => Sys2Proof.Machine.execHalt u s
  | .addi rd rn k => Sys2Proof.Machine.execAddi rd rn k s
  | .andi rd rn k => Sys2Proof.Machine.execAndi rd rn k s
  | .eori rd rn k => Sys2Proof.Machine.execEori rd rn k s
  | .orri rd rn k => Sys2Proof.Machine.execOrri rd rn k s
  | .subi rd rn k => Sys2Proof.Machine.execSubi rd rn k s
  | .subis rd rn k => Sys2Proof.Machine.execSubis rd rn k s
  | .cbz o u => Sys2Proof.Machine.execCbz o u s
  | .cbnz o u => Sys2Proof.Machine.execCbnz o u s
  | .bCond c o u => Sys2Proof.Machine.execBCond c o u s
  | .b o => Sys2Proof.Machine.execB o s
  | .bl o => Sys2Proof.Machine.execBl o s

end Sys2Proof.Machine
end

