-- ==== Sys2Proof/Machine/Fetch.lean ====
section
/-! DEFINITION. Taking the next event: which operation it runs (R108). A word goes through the device's decoder, and its instruction
runs in the state in which the word is consumed (R41). -/

namespace Sys2Proof.Machine

/-- The decode transaction of one word on the device (R102): the instruction's meaning, or DecodeError. -/
def runWord (w : Word) (s : State) : Host.Outcome State Fault Refusal :=
  match decodeWord w with
  | some i => exec i s
  | none => takeDecodeError w s

/-- One event in the state from which it has been taken (R108). -/
def runEvent (ev : Event) (s : State) : Host.Outcome State Fault Refusal :=
  match s.phase, ev with
  | _, .reset => resetBlock s
  | .running, .word w => runWord w s
  | .running, .endOfInput => endRun s
  | .done, .word _ => .fault .endOfRun
  | .done, .endOfInput => .fault .endOfRun

/-- Take the next event off the input and run it; with no event presented there is no step (assumption 12). -/
def runNext (s : State) : Host.Outcome State Fault Refusal :=
  match s.input with
  | [] => .fault .noEvent
  | ev :: rest => runEvent ev (s.setInput rest)

end Sys2Proof.Machine
end

