-- ==== Sys2Proof/Machine/Step.lean ====
section
/-! DEFINITION. One step of the machine: one event of the host (R100, R108). -/

namespace Sys2Proof.Machine

/-- One step: the next event is consumed and run (R100, R108). -/
def step (s : State) : Host.Outcome State Fault Refusal := runNext s

/-- The state in which the host presents, as the next event, the word `w` of `nbits` bits of the opcode table (assumption 12). -/
def State.withFetchWord (s : State) (nbits w : Nat) : State := presentWord (BitVec.ofNat 32 (w % 2 ^ nbits)) s

end Sys2Proof.Machine
end

