-- ==== Sys2Proof/Machine/Reader.lean ====
section
/-! DEFINITION. The host's reader, as far as the spec states its rule (R4, R42, R43): how a file's bytes become the block's events.
I/O errors, the command line and the exit status are outside the block (R223; assumption 18). -/

namespace Sys2Proof.Machine

/-- The words of a file: four bytes each, in file order, big-endian; one to three bytes left over supply no word and raise no
error (R42, R43). -/
def framedWords : List Byte → List Word
  | b0 :: b1 :: b2 :: b3 :: rest => wordOfBytes b0 b1 b2 b3 :: framedWords rest
  | _ => []

/-- The events of one whole run over a file: the reset of the process start, the words, then `End` when fewer than 4 bytes remain
(R223, R243; 95_test_vectors.md 2.7). -/
def runEvents (file : List Byte) : List Event := .reset :: (framedWords file).map .word ++ [.endOfInput]

/-- The events of a run that a fatal I/O error cuts off after `n` bytes: the words read so far and then nothing, no `End` (R223). -/
def cutOffEvents (file : List Byte) (n : Nat) : List Event := .reset :: (framedWords (file.take n)).map .word

end Sys2Proof.Machine
end

