-- ==== Sys2Proof/Machine/Stream.lean ====
section
/-! DEFINITION. The decode transaction (R102) and the step of the stream machine (R108) for ANY configuration (R7), written from the
spec's pseudocode over whole words. The device's own step (Step.lean) runs decoded instructions; that the two agree is stated among
the obligations. -/

namespace Sys2Proof.Machine

/-- The result of one decode transaction (R101). -/
inductive DecodeResult where
  | ok (d : DecodedRecord) (line : String) (lc' : Nat)
  | fail (kind : ErrorKind) (w : Word) (line : String) (lc' : Nat)
  deriving DecidableEq, Repr

/-- `decode(OpcodeRom, CondRom, lc, w)` (R102): total, reading nothing but its four inputs. -/
def decodeTransaction (rom : OpcodeRom) (cond : CondRom) (lc : Nat) (w : Word) : DecodeResult :=
  match classify rom w with
  | none => .fail .decodeError w diagnostic lc
  | some (m, fmt) =>
    .ok (recordOf m fmt (shapeOf m fmt) w lc (mnemText cond m w) (operandText (shapeOf m fmt) w lc))
      ("L" ++ dec lc ++ ": " ++ mnemText cond m w ++ operandText (shapeOf m fmt) w lc)
      (lc + 1)

/-- `step(OpcodeRom, CondRom, (lc, phase), ev)` (R28, R108): the new state and the outputs. Where R109 gives no step it stops, and
where a finite label counter cannot hold the committed label it refuses (D8). -/
def streamStep (c : Config) (lc : Nat) (phase : Phase) (ev : Event) :
    Host.Outcome ((Nat × Phase) × List Output) Fault Refusal :=
  match phase, ev with
  | _, .reset => .next ((1, .running), [])
  | .running, .word w =>
    match decodeTransaction c.opcodeRom c.condRom lc w with
    | .ok d line lc' =>
      if labelFits c.labelW lc' then .next ((lc', .running), [.decoded d, .line line]) else .refused .labelOverflow
    | .fail k w' line lc' => .next ((lc', .running), [.error k w', .line line])
  | .running, .endOfInput => .next ((lc, .done), [])
  | .done, .word _ => .fault .endOfRun
  | .done, .endOfInput => .fault .endOfRun

/-- The stream machine between the host's two streams: it consumes the next event and appends the outputs (R41, R46). -/
def stepWith (c : Config) (s : State) : Host.Outcome State Fault Refusal :=
  match s.input with
  | [] => .fault .noEvent
  | ev :: rest =>
    match streamStep c s.lc s.phase ev with
    | .next ((lc', phase'), items) => .next { lc := lc', phase := phase', input := rest, output := s.output ++ items }
    | .fault r => .fault r
    | .refused r => .refused r

/-- The stream law's recursion (R110): the outputs of a word sequence presented at `lc`, and the last `lc`. -/
def sequentialDecode (rom : OpcodeRom) (cond : CondRom) (lc : Nat) : List Word → List Output × Nat
  | [] => ([], lc)
  | w :: ws =>
    match decodeTransaction rom cond lc w with
    | .ok d line lc' =>
      let r := sequentialDecode rom cond lc' ws
      ([.decoded d, .line line] ++ r.1, r.2)
    | .fail k w' line lc' =>
      let r := sequentialDecode rom cond lc' ws
      ([.error k w', .line line] ++ r.1, r.2)

/-- What a parallel realisation may form of a word before it knows the outcomes of the words before it (R245): the hit, the shape, the
mnemonic text, and the operand text where it does not read `lc`, or the offset of a branch. -/
structure LabelFree where
  word     : Word
  mnem     : String
  fmt      : Format
  shape    : Shape
  mnemtext : String
  operand  : String ⊕ Int
  deriving DecidableEq, Repr

/-- The label-free part of a word's transaction, from the word and the ROMs alone (R245); `Sum.inl` is a finished operand text and
`Sum.inr` a branch offset. -/
def labelFree (rom : OpcodeRom) (cond : CondRom) (w : Word) : Word × Option LabelFree :=
  match classify rom w with
  | none => (w, none)
  | some (m, fmt) =>
    (w, some
      { word := w, mnem := m, fmt := fmt, shape := shapeOf m fmt, mnemtext := mnemText cond m w
        operand :=
          match shapeOf m fmt with
          | .conditionalBranch => .inr (sext (cboffField w))
          | .unconditionalBranch => .inr (sext (boffField w))
          | sh => .inl (operandText sh w 0) })

/-- The label-dependent part, formed at the word's own label (R106, R245). -/
def finishRecord (p : LabelFree) (lc : Nat) : DecodedRecord :=
  recordOf p.mnem p.fmt p.shape p.word lc p.mnemtext
    (match p.operand with
     | .inl text => text
     | .inr offset => branchText lc offset)

/-- "Parallel decode, sequential commit" (R230): lines and label increments are formed in input order. -/
def commitInOrder (lc : Nat) : List (Word × Option LabelFree) → List Output × Nat
  | [] => ([], lc)
  | (_, some p) :: rest =>
    let r := commitInOrder (lc + 1) rest
    (decodedOutputs (finishRecord p lc) ++ r.1, r.2)
  | (w, none) :: rest =>
    let r := commitInOrder lc rest
    (errorOutputs w ++ r.1, r.2)

/-- A parallel realisation: every word's label-free part on its own, then the commits in order (R230, R245). -/
def parallelDecode (rom : OpcodeRom) (cond : CondRom) (lc : Nat) (ws : List Word) : List Output × Nat :=
  commitInOrder lc (ws.map (labelFree rom cond))

end Sys2Proof.Machine
end

