-- ==== Sys2Proof/Safety.lean ====
section
/-! DEFINITION. What claims about runs are stated in: the readings of an output stream (its lines, its instruction lines, its
diagnostics, its labels) and the invariant every step keeps. -/

namespace Sys2Proof.Machine

/-- The text lines of an output stream, in order (R46). -/
def linesOf (items : List Output) : List String :=
  items.filterMap fun o => match o with
    | .line s => some s
    | .decoded _ => none
    | .error _ _ => none

/-- The records of an output stream, in order (R107). -/
def recordsOf (items : List Output) : List DecodedRecord :=
  items.filterMap fun o => match o with
    | .decoded d => some d
    | .line _ => none
    | .error _ _ => none

/-- The labels of an output stream's decoded words, in order (R111). -/
def labelsOf (items : List Output) : List Nat := (recordsOf items).map fun d => d.label

/-- The instruction lines of an output stream: the lines that go with a record (R100, R111). -/
def instructionLines : List Output → List String
  | .decoded _ :: .line s :: rest => s :: instructionLines rest
  | _ :: rest => instructionLines rest
  | [] => []

/-- The diagnostic lines of an output stream: the lines that go with an error (R100, R222). -/
def diagnosticLines : List Output → List String
  | .error _ _ :: .line s :: rest => s :: diagnosticLines rest
  | _ :: rest => diagnosticLines rest
  | [] => []

/-- How many of the words decode under the ROM (R75). -/
def decodableCount (rom : OpcodeRom) (ws : List Word) : Nat := ws.countP fun w => (classify rom w).isSome

/-- The stream machine of a configuration behind the host's interface (R7, R108). -/
def coreWith (c : Config) : Host.Core := {
  State   := State
  Fault   := Fault
  Refusal := Refusal
  step    := stepWith c
  reset   := State.reset }

/-- A record is consistent with R73, R78, R106 and R107: its mnemonic and format are one row of the device's ROM, its shape is that
row's, its label is positive, and a target is there exactly for a branch format and is the own label plus that format's offset. -/
def recordOk (d : DecodedRecord) : Bool :=
  (device.opcodeRom.any fun e => e.mnem == d.mnem && formatOf e.width == d.fmt) &&
  d.shape == shapeOf d.mnem d.fmt &&
  decide (1 ≤ d.label) &&
  d.target == (match d.fmt with
    | .cb => some ((d.label : Int) + d.cboff)
    | .b => some ((d.label : Int) + d.boff)
    | .r => none
    | .i => none)

/-- The output stream is a sequence of whole transactions: a consistent record and its line (R104), or the DecodeError of an illegal
word and the diagnostic (R220, R222), which is no instruction line. -/
def outputOk : List Output → Bool
  | [] => true
  | .decoded d :: .line s :: rest => recordOk d && s == lineOf d && outputOk rest
  | .error k w :: .line s :: rest => k == .decodeError && (decodeWord w).isNone && s == diagnostic && outputOk rest
  | _ => false

/-- The invariant of a run (R20, R46, R111): the label counter is positive, and everything put out is whole, consistent
transactions. -/
def State.ok (s : State) : Bool := decide (1 ≤ s.lc) && outputOk s.output

end Sys2Proof.Machine
end

