-- ==== Sys2Proof/Certificates/Slice0/Obligations.lean ====
section
/-! DEFINITION. The statements for the provers. Each docstring names the rules it comes from, and the spec's decision (D<n> of
92_eei_decisions.md) or log entry where it rests on a choice that the source does not make. -/

namespace Sys2Proof.Machine

/-- The structured record of R107 written out from the word: the slices of R67 by bit numbers, and the signed fields by the
thresholds of R68. -/
def wordRecord (m : String) (fmt : Format) (sh : Shape) (w : Word) (lc : Nat) (target : Option Int) (mnemtext operandtext : String) :
    DecodedRecord where
  mnem        := m
  fmt         := fmt
  shape       := sh
  label       := lc
  rd          := w.extractLsb' 0 5
  rn          := w.extractLsb' 5 5
  rm          := w.extractLsb' 16 5
  rt          := w.extractLsb' 0 5
  shamt       := w.extractLsb' 10 6
  cond        := w.extractLsb' 0 4
  dtoff       := if 256 ≤ (w.extractLsb' 12 9).toNat then ((w.extractLsb' 12 9).toNat : Int) - 512 else ((w.extractLsb' 12 9).toNat : Int)
  imm         := if 2048 ≤ (w.extractLsb' 10 12).toNat then ((w.extractLsb' 10 12).toNat : Int) - 4096 else ((w.extractLsb' 10 12).toNat : Int)
  cboff       := if 262144 ≤ (w.extractLsb' 5 19).toNat then ((w.extractLsb' 5 19).toNat : Int) - 524288 else ((w.extractLsb' 5 19).toNat : Int)
  boff        := if 33554432 ≤ (w.extractLsb' 0 26).toNat then ((w.extractLsb' 0 26).toNat : Int) - 67108864 else ((w.extractLsb' 0 26).toNat : Int)
  target      := target
  mnemtext    := mnemtext
  operandtext := operandtext

/-- The record's target (R107): the own label plus the sign-extended offset field of the two branch formats, absent for the others. -/
def wordTarget (fmt : Format) (w : Word) (lc : Nat) : Option Int :=
  match fmt with
  | .cb => some ((lc : Int) + (w.extractLsb' 5 19).toInt)
  | .b => some ((lc : Int) + (w.extractLsb' 0 26).toInt)
  | .r => none
  | .i => none

/-- `exec i s` answers the next state in which exactly three things have happened: the record of the instruction's word and its line
are appended to the output, and `lc` is one more. The phase, the events presented, and all earlier output are as before. That the
record goes out with all slices, before the line, is D19 (assumption 15), and the line's spacing is D11 (assumption 8); the record's
slices that reach into the opcode follow R72's patterns (assumption 1). -/
def AnswersLine (i : Instr) (s : State) (m : String) (fmt : Format) (sh : Shape) (target : Option Int) (mnemtext operandtext : String) :
    Prop :=
  exec i s = .next
    { lc     := s.lc + 1
      phase  := s.phase
      input  := s.input
      output := s.output ++
        [ .decoded (wordRecord m fmt sh (encode i) s.lc target mnemtext operandtext),
          .line ("L" ++ dec s.lc ++ ": " ++ mnemtext ++ operandtext) ] }

/-- One row of R72's `match` and `mask` columns, with the row's mnemonic and format. -/
structure MaskRow where
  mnem  : String
  fmt   : Format
  value : Word
  mask  : Word
  deriving DecidableEq, Repr

/-- The `match` and `mask` columns of R72, row by row. -/
def maskRows : List MaskRow :=
  [ ⟨"ADD", .r, 0x8B000000, 0xFFE00000⟩, ⟨"AND", .r, 0x8A000000, 0xFFE00000⟩, ⟨"EOR", .r, 0xCA000000, 0xFFE00000⟩,
    ⟨"ORR", .r, 0xAA000000, 0xFFE00000⟩, ⟨"SUB", .r, 0xCB000000, 0xFFE00000⟩, ⟨"SUBS", .r, 0xEB000000, 0xFFE00000⟩,
    ⟨"MUL", .r, 0x9B000000, 0xFFE00000⟩, ⟨"BR", .r, 0xD6000000, 0xFFE00000⟩, ⟨"LSL", .r, 0xD3600000, 0xFFE00000⟩,
    ⟨"LSR", .r, 0xD3400000, 0xFFE00000⟩, ⟨"PRNT", .r, 0xFFA00000, 0xFFE00000⟩, ⟨"LDUR", .r, 0xF8400000, 0xFFE00000⟩,
    ⟨"STUR", .r, 0xF8000000, 0xFFE00000⟩, ⟨"PRNL", .r, 0xFF800000, 0xFFE00000⟩ ] ++
  [ ⟨"DUMP", .r, 0xFFC00000, 0xFFE00000⟩, ⟨"HALT", .r, 0xFFE00000, 0xFFE00000⟩, ⟨"ADDI", .i, 0x91000000, 0xFFC00000⟩,
    ⟨"ANDI", .i, 0x92000000, 0xFFC00000⟩, ⟨"EORI", .i, 0xD2000000, 0xFFC00000⟩, ⟨"ORRI", .i, 0xB2000000, 0xFFC00000⟩,
    ⟨"SUBI", .i, 0xD1000000, 0xFFC00000⟩, ⟨"SUBIS", .i, 0xF1000000, 0xFFC00000⟩, ⟨"CBZ", .cb, 0xB4000000, 0xFF000000⟩,
    ⟨"CBNZ", .cb, 0xB5000000, 0xFF000000⟩, ⟨"B.", .cb, 0x54000000, 0xFF000000⟩, ⟨"B", .b, 0x14000000, 0xFC000000⟩,
    ⟨"BL", .b, 0x94000000, 0xFC000000⟩ ]

/-- The bits below the opcode that decide a line's text, by shape and mnemonic (the "read by shape" columns of R62 to R66; R81 for
`B.`). -/
def readMask (sh : Shape) (m : String) : Word :=
  match sh with
  | .threeRegister => 0x001F03FF
  | .singleRegister => 0x000003E0
  | .dualRegisterNoOffset => 0x000003FF
  | .shiftImmediate => 0x0000FFFF
  | .memoryOffset => 0x001FF3FF
  | .aluImmediate => 0x003FFFFF
  | .conditionalBranch => if m = "B." then 0x00FFFFEF else 0x00FFFFE0
  | .unconditionalBranch => 0x03FFFFFF
  | .noOperands => 0x00000000

/-- Reading a decimal numeral back: the value of its digits. -/
def digitsValue (cs : List Char) : Nat := cs.foldl (fun a c => 10 * a + (c.toNat - 48)) 0

end Sys2Proof.Machine

open Sys2Proof Sys2Proof.Machine

/-! ## Reset, end of input, and the step -/

/-- R240, R241: what reset leaves. That no event is presented and nothing has been put out is the model's choice (assumption 12). -/
def Obligations.ResetStateHasLabelOneAndRuns : Prop :=
  State.reset.lc = 1 ∧ State.reset.phase = .running ∧ State.reset.input = [] ∧ State.reset.output = []

/-- R240: a `Reset` event sets `lc` to 1 and the phase to Running in either phase, and emits nothing. The event itself is D13
(assumption 10). -/
def Obligations.ResetEventRestartsLabels : Prop :=
  ∀ (s : State) (rest : List Event), s.input = .reset :: rest →
    step s = .next { lc := 1, phase := .running, input := rest, output := s.output }

/-- R109: `End` moves a running block to Done and emits nothing; the label counter keeps its value (D14, assumption 11). -/
def Obligations.EndOfInputMovesToDone : Prop :=
  ∀ (s : State) (rest : List Event), s.phase = .running → s.input = .endOfInput :: rest →
    step s = .next { lc := s.lc, phase := .done, input := rest, output := s.output }

/-- R109: in Done there is no step for a word or an end of input; only a `Reset` is taken (D14, assumption 11). -/
def Obligations.DoneTakesOnlyReset : Prop :=
  ∀ (s : State) (ev : Event) (rest : List Event), s.phase = .done → s.input = ev :: rest →
    (ev ≠ .reset → step s = .fault .endOfRun) ∧
    (ev = .reset → step s = .next { lc := 1, phase := .running, input := rest, output := s.output })

/-- With no event presented there is no step. The model's choice (assumption 12). -/
def Obligations.NoEventNoStep : Prop :=
  ∀ s : State, s.input = [] → step s = .fault .noEvent

/-- R102, R108: when the next event is a word that decodes to `i`, the step is `exec i` in the state in which the word has been
consumed. The step adds nothing else. -/
def Obligations.StepRunsDecodedInstruction : Prop :=
  ∀ (s : State) (w : Word) (rest : List Event) (i : Instr),
    s.phase = .running → s.input = .word w :: rest → decodeWord w = some i →
    step s = exec i { s with input := rest }

/-- The table word placed by `withFetchWord` is what the very next step runs (assumption 12), through the file's byte order (R42): the
instruction that `decodeTableWord` reads, or DecodeError where it reads none. -/
def Obligations.PresentedTableWordIsRun : Prop :=
  ∀ (s : State) (w : Nat),
    (∀ i, decodeTableWord 32 w = some i → step (s.withFetchWord 32 w) = exec i { s with phase := .running }) ∧
    (decodeTableWord 32 w = none →
      step (s.withFetchWord 32 w) = .next
        { lc := s.lc, phase := .running, input := s.input
          output := s.output ++ [.error .decodeError (BitVec.ofNat 32 w), .line "Opcode not found --> Error with program"] })

/-! ## DecodeError -/

/-- R220: a word raises DecodeError exactly when no probe hits. It then emits the error and the diagnostic, leaves `lc` and everything
else, and is consumed; a word that hits raises nothing, whatever its operands are. -/
def Obligations.DecodeErrorExactlyOnIllegalWords : Prop :=
  ∀ (s : State) (w : Word) (rest : List Event), s.phase = .running → s.input = .word w :: rest →
    (classify device.opcodeRom w = none →
      step s = .next
        { lc := s.lc, phase := .running, input := rest
          output := s.output ++ [.error .decodeError w, .line "Opcode not found --> Error with program"] }) ∧
    (classify device.opcodeRom w ≠ none →
      ∃ d, step s = .next
        { lc := s.lc + 1, phase := .running, input := rest, output := s.output ++ [.decoded d, .line (lineOf d)] })

/-- R222: the diagnostic is one fixed string of 39 characters, for every ROM, every word and every label. -/
def Obligations.DiagnosticIsOneFixedLine : Prop :=
  ("Opcode not found --> Error with program").length = 39 ∧
  ∀ (rom : OpcodeRom) (cond : CondRom) (lc : Nat) (w : Word) (k : ErrorKind) (w' : Word) (line : String) (lc' : Nat),
    decodeTransaction rom cond lc w = .fail k w' line lc' →
      line = "Opcode not found --> Error with program" ∧ k = .decodeError ∧ w' = w ∧ lc' = lc

/-- R105: a word that decodes advances `lc` by exactly 1 after its line is formed, so its line carries the old `lc`; a word that does
not decode leaves `lc`. -/
def Obligations.LabelAdvancesExactlyOnDecode : Prop :=
  ∀ (s : State) (w : Word) (rest : List Event), s.phase = .running → s.input = .word w :: rest →
    ∃ t, step s = .next t ∧
      (classify device.opcodeRom w ≠ none →
        t.lc = s.lc + 1 ∧
        ∃ d text, t.output = s.output ++ [.decoded d, .line ("L" ++ dec s.lc ++ ": " ++ text)]) ∧
      (classify device.opcodeRom w = none → t.lc = s.lc)

/-- R221: the numbering of the error kinds is D18's (assumption 17). -/
def Obligations.ErrorKindNumbers : Prop :=
  errorCode .decodeError = 1 ∧ errorCode .ioError = 2

/-! ## What each instruction emits, and that it completes -/

/-- R121 to R128: the seven ThreeRegister instructions, for every register code and every value of the unread bits. -/
def Obligations.ThreeRegisterInstructionsRender : Prop :=
  ∀ (rd rn rm : RegCode) (u : BitVec 6) (s : State),
    AnswersLine (.add rd rn rm u) s "ADD" .r .threeRegister none "ADD" (" " ++ regname rd ++ ", " ++ regname rn ++ ", " ++ regname rm) ∧
    AnswersLine (.and rd rn rm u) s "AND" .r .threeRegister none "AND" (" " ++ regname rd ++ ", " ++ regname rn ++ ", " ++ regname rm) ∧
    AnswersLine (.eor rd rn rm u) s "EOR" .r .threeRegister none "EOR" (" " ++ regname rd ++ ", " ++ regname rn ++ ", " ++ regname rm) ∧
    AnswersLine (.orr rd rn rm u) s "ORR" .r .threeRegister none "ORR" (" " ++ regname rd ++ ", " ++ regname rn ++ ", " ++ regname rm) ∧
    AnswersLine (.sub rd rn rm u) s "SUB" .r .threeRegister none "SUB" (" " ++ regname rd ++ ", " ++ regname rn ++ ", " ++ regname rm) ∧
    AnswersLine (.subs rd rn rm u) s "SUBS" .r .threeRegister none "SUBS" (" " ++ regname rd ++ ", " ++ regname rn ++ ", " ++ regname rm) ∧
    AnswersLine (.mul rd rn rm u) s "MUL" .r .threeRegister none "MUL" (" " ++ regname rd ++ ", " ++ regname rn ++ ", " ++ regname rm)

/-- R129, R130: BR renders Rn alone and has no target label. -/
def Obligations.SingleRegisterInstructionRenders : Prop :=
  ∀ (rn : RegCode) (hi : BitVec 11) (lo : BitVec 5) (s : State),
    AnswersLine (.br rn hi lo) s "BR" .r .singleRegister none "BR" (" " ++ regname rn)

/-- R131, R132: PRNT renders Rn first, then Rd. -/
def Obligations.DualRegisterInstructionRenders : Prop :=
  ∀ (rn rd : RegCode) (u : BitVec 11) (s : State),
    AnswersLine (.prnt rn rd u) s "PRNT" .r .dualRegisterNoOffset none "PRNT" (" " ++ regname rn ++ ", " ++ regname rd)

/-- R133 to R135: LSL and LSR, the shift amount unsigned. An amount above 63 is encoded by no word (R134); that the line then shows the
operand whole, beside the record of the truncated field, is the model's choice (assumption 19, DEDUCED). -/
def Obligations.ShiftImmediateInstructionsRender : Prop :=
  ∀ (rd rn : RegCode) (shamt : Nat) (u : BitVec 5) (s : State),
    AnswersLine (.lsl rd rn shamt u) s "LSL" .r .shiftImmediate none "LSL" (" " ++ regname rd ++ ", " ++ regname rn ++ ", #" ++ dec shamt) ∧
    AnswersLine (.lsr rd rn shamt u) s "LSR" .r .shiftImmediate none "LSR" (" " ++ regname rd ++ ", " ++ regname rn ++ ", #" ++ dec shamt)

/-- R136 to R138: LDUR and STUR, the offset signed and unscaled. The block performs no load and no store: its state holds no memory. An
offset outside -256..255 is encoded by no word (R137); that the line then shows the operand whole, beside the record of the truncated
field, is the model's choice (assumption 19, DEDUCED). -/
def Obligations.MemoryOffsetInstructionsRender : Prop :=
  ∀ (rt rn : RegCode) (offset : Int) (u : BitVec 2) (s : State),
    AnswersLine (.ldur rt rn offset u) s "LDUR" .r .memoryOffset none "LDUR"
      (" " ++ regname rt ++ ", [" ++ regname rn ++ ", #" ++ dec offset ++ "]") ∧
    AnswersLine (.stur rt rn offset u) s "STUR" .r .memoryOffset none "STUR"
      (" " ++ regname rt ++ ", [" ++ regname rn ++ ", #" ++ dec offset ++ "]")

/-- R139 to R142: PRNL, DUMP and HALT render the mnemonic alone, with no trailing space (D11, assumption 8), and change nothing else:
HALT leaves the phase. -/
def Obligations.NoOperandsInstructionsRender : Prop :=
  ∀ (u : BitVec 21) (s : State),
    AnswersLine (.prnl u) s "PRNL" .r .noOperands none "PRNL" "" ∧
    AnswersLine (.dump u) s "DUMP" .r .noOperands none "DUMP" "" ∧
    AnswersLine (.halt u) s "HALT" .r .noOperands none "HALT" ""

/-- R161 to R167: the six ALUImmediate instructions, the immediate signed for the logical ones too. An immediate outside
-2048..2047 is encoded by no word (R162); that the line then shows the operand whole, beside the record of the truncated field, is the
model's choice (assumption 19, DEDUCED). -/
def Obligations.AluImmediateInstructionsRender : Prop :=
  ∀ (rd rn : RegCode) (imm : Int) (s : State),
    AnswersLine (.addi rd rn imm) s "ADDI" .i .aluImmediate none "ADDI" (" " ++ regname rd ++ ", " ++ regname rn ++ ", #" ++ dec imm) ∧
    AnswersLine (.andi rd rn imm) s "ANDI" .i .aluImmediate none "ANDI" (" " ++ regname rd ++ ", " ++ regname rn ++ ", #" ++ dec imm) ∧
    AnswersLine (.eori rd rn imm) s "EORI" .i .aluImmediate none "EORI" (" " ++ regname rd ++ ", " ++ regname rn ++ ", #" ++ dec imm) ∧
    AnswersLine (.orri rd rn imm) s "ORRI" .i .aluImmediate none "ORRI" (" " ++ regname rd ++ ", " ++ regname rn ++ ", #" ++ dec imm) ∧
    AnswersLine (.subi rd rn imm) s "SUBI" .i .aluImmediate none "SUBI" (" " ++ regname rd ++ ", " ++ regname rn ++ ", #" ++ dec imm) ∧
    AnswersLine (.subis rd rn imm) s "SUBIS" .i .aluImmediate none "SUBIS" (" " ++ regname rd ++ ", " ++ regname rn ++ ", #" ++ dec imm)

/-- R182 to R185, R106: CBZ, CBNZ and B.cond render the target label `lc + offset`, formed from `lc` before the commit, for every
offset the field holds; no register is printed (D21, assumption 16), and a target below 1 is rendered as it is (D9, assumption 14).
The suffix strings are R80's defaults (assumption 2), at bits 3:0 (assumption 5), directly after `B.` (assumption 6). -/
def Obligations.ConditionalBranchInstructionsRender : Prop :=
  ∀ (offset : Int) (u : BitVec 5) (c : CondCode) (u1 : BitVec 1) (s : State), -262144 ≤ offset → offset ≤ 262143 →
    AnswersLine (.cbz offset u) s "CBZ" .cb .conditionalBranch (some (s.lc + offset)) "CBZ" (" L" ++ dec (s.lc + offset)) ∧
    AnswersLine (.cbnz offset u) s "CBNZ" .cb .conditionalBranch (some (s.lc + offset)) "CBNZ" (" L" ++ dec (s.lc + offset)) ∧
    AnswersLine (.bCond c offset u1) s "B." .cb .conditionalBranch (some (s.lc + offset))
      ("B." ++ ["EQ", "NE", "HS", "LO", "MI", "PL", "VS", "VC", "HI", "LS", "GE", "LT", "GT", "LE", "", ""].getD c.toNat "")
      (" L" ++ dec (s.lc + offset))

/-- R201 to R203, R106: B and BL render the target label `lc + offset`, for every offset the field holds; no link register is written
or printed, and a target below 1 is rendered as it is (D9, assumption 14). -/
def Obligations.UnconditionalBranchInstructionsRender : Prop :=
  ∀ (offset : Int) (s : State), -33554432 ≤ offset → offset ≤ 33554431 →
    AnswersLine (.b offset) s "B" .b .unconditionalBranch (some (s.lc + offset)) "B" (" L" ++ dec (s.lc + offset)) ∧
    AnswersLine (.bl offset) s "BL" .b .unconditionalBranch (some (s.lc + offset)) "BL" (" L" ++ dec (s.lc + offset))

/-- R120, R160, R180, R200: every one of the 27 instructions completes in every state, and its frame: the phase, the events presented
and all earlier output stay, `lc` is one more, and exactly one record and its line are appended, with the own label, a row of the
device's ROM and that row's shape. It covers every term of `Instr`: that a term with an operand outside its field's range, which no word
encodes, completes too, with the line of the whole operand beside the record of the truncated field, is the model's choice
(assumption 19, DEDUCED). -/
def Obligations.EveryInstructionCompletesWithItsFrame : Prop :=
  ∀ (i : Instr) (s : State), ∃ t d, exec i s = .next t ∧
    t.lc = s.lc + 1 ∧ t.phase = s.phase ∧ t.input = s.input ∧
    t.output = s.output ++ [.decoded d, .line ("L" ++ dec s.lc ++ ": " ++ d.mnemtext ++ d.operandtext)] ∧
    d.label = s.lc ∧ d.shape = shapeOf d.mnem d.fmt ∧
    (∃ e ∈ device.opcodeRom, e.mnem = d.mnem ∧ formatOf e.width = d.fmt)

/-- R142, R109: HALT does not end the run; the word after it is decoded with the next label. -/
def Obligations.HaltDoesNotEndTheRun : Prop :=
  ∀ (s : State) (w w' : Word) (rest : List Event), s.phase = .running → s.input = .word w :: .word w' :: rest →
    w.extractLsb' 21 11 = 0x7FF#11 →
    ∃ t d, step s = .next t ∧ t.phase = .running ∧ t.lc = s.lc + 1 ∧ t.input = .word w' :: rest ∧
      t.output = s.output ++ [.decoded d, .line ("L" ++ dec s.lc ++ ": " ++ "HALT")] ∧
      ∃ t', step t = .next t' ∧ t'.phase = .running ∧ t'.input = rest ∧
        (decodeWord w' ≠ none →
          ∃ d' text, t'.output = t.output ++ [.decoded d', .line ("L" ++ dec (s.lc + 1) ++ ": " ++ text)])

/-! ## Encoding -/

/-- Decode and encode agree: every well-formed instruction comes back from its word, with every operand and every unread bit. The
patterns are R72's defaults (assumption 1); that `B.` has its code in bits 3:0 is D5 (assumption 5, PRESUMED); that a `B` whose bits
31:21 are 0xB4 or 0xB5, or whose bits 31:22 are 0x054, comes back as `B` is the keying by width and value of D4 (assumption 4, DESIGN
CHOICE). -/
def Obligations.DecodingTheEncodingGivesTheInstruction : Prop :=
  ∀ i : Instr, i.wf = true → decodeWord (encode i) = some i

/-- The other direction: a decoded instruction is well-formed and encodes to the very word it came from, so no bit of a word is
dropped. Which words decode, and to which instruction, follows R72's defaults (assumption 1), D5 (assumption 5, PRESUMED) and the keying
of D4 (assumption 4, DESIGN CHOICE). -/
def Obligations.EncodingTheDecodedGivesTheWord : Prop :=
  ∀ (w : Word) (i : Instr), decodeWord w = some i → i.wf = true ∧ encode i = w

/-- R62, R63, R122 to R142: what the decoder reads from every word of an R-format opcode. The patterns but ADD's are R72's defaults
(assumption 1); memory offsets of 256 and more are offset by -512 (R68). -/
def Obligations.RegisterFormatWordsDecode : Prop :=
  ∀ w : Word,
    (w.extractLsb' 21 11 = 0b10001011000#11 → decodeWord w = some (.add (w.extractLsb' 0 5) (w.extractLsb' 5 5) (w.extractLsb' 16 5) (w.extractLsb' 10 6))) ∧
    (w.extractLsb' 21 11 = 0b10001010000#11 → decodeWord w = some (.and (w.extractLsb' 0 5) (w.extractLsb' 5 5) (w.extractLsb' 16 5) (w.extractLsb' 10 6))) ∧
    (w.extractLsb' 21 11 = 0b11001010000#11 → decodeWord w = some (.eor (w.extractLsb' 0 5) (w.extractLsb' 5 5) (w.extractLsb' 16 5) (w.extractLsb' 10 6))) ∧
    (w.extractLsb' 21 11 = 0b10101010000#11 → decodeWord w = some (.orr (w.extractLsb' 0 5) (w.extractLsb' 5 5) (w.extractLsb' 16 5) (w.extractLsb' 10 6))) ∧
    (w.extractLsb' 21 11 = 0b11001011000#11 → decodeWord w = some (.sub (w.extractLsb' 0 5) (w.extractLsb' 5 5) (w.extractLsb' 16 5) (w.extractLsb' 10 6))) ∧
    (w.extractLsb' 21 11 = 0b11101011000#11 → decodeWord w = some (.subs (w.extractLsb' 0 5) (w.extractLsb' 5 5) (w.extractLsb' 16 5) (w.extractLsb' 10 6))) ∧
    (w.extractLsb' 21 11 = 0b10011011000#11 → decodeWord w = some (.mul (w.extractLsb' 0 5) (w.extractLsb' 5 5) (w.extractLsb' 16 5) (w.extractLsb' 10 6))) ∧
    (w.extractLsb' 21 11 = 0b11010110000#11 → decodeWord w = some (.br (w.extractLsb' 5 5) (w.extractLsb' 10 11) (w.extractLsb' 0 5))) ∧
    (w.extractLsb' 21 11 = 0b11010011011#11 → decodeWord w = some (.lsl (w.extractLsb' 0 5) (w.extractLsb' 5 5) (w.extractLsb' 10 6).toNat (w.extractLsb' 16 5))) ∧
    (w.extractLsb' 21 11 = 0b11010011010#11 → decodeWord w = some (.lsr (w.extractLsb' 0 5) (w.extractLsb' 5 5) (w.extractLsb' 10 6).toNat (w.extractLsb' 16 5))) ∧
    (w.extractLsb' 21 11 = 0b11111111101#11 → decodeWord w = some (.prnt (w.extractLsb' 5 5) (w.extractLsb' 0 5) (w.extractLsb' 10 11))) ∧
    (w.extractLsb' 21 11 = 0b11111000010#11 → decodeWord w = some (.ldur (w.extractLsb' 0 5) (w.extractLsb' 5 5)
      (if 256 ≤ (w.extractLsb' 12 9).toNat then ((w.extractLsb' 12 9).toNat : Int) - 512 else ((w.extractLsb' 12 9).toNat : Int)) (w.extractLsb' 10 2))) ∧
    (w.extractLsb' 21 11 = 0b11111000000#11 → decodeWord w = some (.stur (w.extractLsb' 0 5) (w.extractLsb' 5 5)
      (if 256 ≤ (w.extractLsb' 12 9).toNat then ((w.extractLsb' 12 9).toNat : Int) - 512 else ((w.extractLsb' 12 9).toNat : Int)) (w.extractLsb' 10 2))) ∧
    (w.extractLsb' 21 11 = 0b11111111100#11 → decodeWord w = some (.prnl (w.extractLsb' 0 21))) ∧
    (w.extractLsb' 21 11 = 0b11111111110#11 → decodeWord w = some (.dump (w.extractLsb' 0 21))) ∧
    (w.extractLsb' 21 11 = 0b11111111111#11 → decodeWord w = some (.halt (w.extractLsb' 0 21)))

/-- R64, R162 to R167: what the decoder reads from every word of an I-format opcode; immediates of 2048 and more are offset by -4096
(R68). The patterns are R72's defaults (assumption 1). -/
def Obligations.ImmediateFormatWordsDecode : Prop :=
  ∀ (w : Word) (imm : Int),
    imm = (if 2048 ≤ (w.extractLsb' 10 12).toNat then ((w.extractLsb' 10 12).toNat : Int) - 4096 else ((w.extractLsb' 10 12).toNat : Int)) →
    (w.extractLsb' 22 10 = 0b1001000100#10 → decodeWord w = some (.addi (w.extractLsb' 0 5) (w.extractLsb' 5 5) imm)) ∧
    (w.extractLsb' 22 10 = 0b1001001000#10 → decodeWord w = some (.andi (w.extractLsb' 0 5) (w.extractLsb' 5 5) imm)) ∧
    (w.extractLsb' 22 10 = 0b1101001000#10 → decodeWord w = some (.eori (w.extractLsb' 0 5) (w.extractLsb' 5 5) imm)) ∧
    (w.extractLsb' 22 10 = 0b1011001000#10 → decodeWord w = some (.orri (w.extractLsb' 0 5) (w.extractLsb' 5 5) imm)) ∧
    (w.extractLsb' 22 10 = 0b1101000100#10 → decodeWord w = some (.subi (w.extractLsb' 0 5) (w.extractLsb' 5 5) imm)) ∧
    (w.extractLsb' 22 10 = 0b1111000100#10 → decodeWord w = some (.subis (w.extractLsb' 0 5) (w.extractLsb' 5 5) imm))

/-- R65, R66, R183 to R203: what the decoder reads from every word of a CB- or B-format opcode; offsets of 262144 and more are offset
by -524288, and of 33554432 and more by -67108864 (R68). The patterns but B's are R72's defaults (assumption 1). That `B.` has its
condition code in bits 3:0, with bit 4 beside it unread, is D5 from general knowledge (assumption 5, PRESUMED). That the words of B's
pattern whose bits 31:21 are 0xB4 or 0xB5 (such as 0x16800000), or whose bits 31:22 are 0x054, are `B`, although that wider field holds
the value of CBZ, CBNZ or `B.`, is the keying by width and value of D4 (assumption 4, DESIGN CHOICE). -/
def Obligations.BranchFormatWordsDecode : Prop :=
  ∀ (w : Word) (cboff boff : Int),
    cboff = (if 262144 ≤ (w.extractLsb' 5 19).toNat then ((w.extractLsb' 5 19).toNat : Int) - 524288 else ((w.extractLsb' 5 19).toNat : Int)) →
    boff = (if 33554432 ≤ (w.extractLsb' 0 26).toNat then ((w.extractLsb' 0 26).toNat : Int) - 67108864 else ((w.extractLsb' 0 26).toNat : Int)) →
    (w.extractLsb' 24 8 = 0b10110100#8 → decodeWord w = some (.cbz cboff (w.extractLsb' 0 5))) ∧
    (w.extractLsb' 24 8 = 0b10110101#8 → decodeWord w = some (.cbnz cboff (w.extractLsb' 0 5))) ∧
    (w.extractLsb' 24 8 = 0b01010100#8 → decodeWord w = some (.bCond (w.extractLsb' 0 4) cboff (w.extractLsb' 4 1))) ∧
    (w.extractLsb' 26 6 = 0b000101#6 → decodeWord w = some (.b boff)) ∧
    (w.extractLsb' 26 6 = 0b100101#6 → decodeWord w = some (.bl boff))

/-- R74, R75: a word has a row's mnemonic and format exactly when it matches the row's `match` under its `mask`, and it is illegal
exactly when it matches no row. The rows are R72's (assumption 1), and that a probe sees the
entries of its own width only is D4 (assumption 4). -/
def Obligations.MaskAndMatchDecideTheRow : Prop :=
  ∀ w : Word,
    (∀ r ∈ maskRows, classify device.opcodeRom w = some (r.mnem, r.fmt) ↔ w &&& r.mask = r.value) ∧
    (decodeWord w = none ↔ ∀ r ∈ maskRows, w &&& r.mask ≠ r.value)

/-- R75: 116 of the 2048 values of bits 31:21 decode and the other 1932 do not, whatever bits 20:0 hold (an inference the spec marks as
its own, over R72's defaults, assumption 1,
keyed by width and value, D4, assumption 4). -/
def Obligations.OneHundredSixteenFieldValuesDecode : Prop :=
  ((List.range 2048).countP fun v => (decodeWord (BitVec.ofNat 32 (v * 2 ^ 21))).isSome) = 116 ∧
  ∀ w : Word, (decodeWord w).isSome = (decodeWord (BitVec.ofNat 32 ((w.extractLsb' 21 11).toNat * 2 ^ 21))).isSome

/-- R47, R74: the default ROM holds at most one entry at an address, every value fits its width, and no row's pattern is the top bits
of a wider row's. -/
def Obligations.DefaultRomIsPrefixFree : Prop :=
  romWf device.opcodeRom = true ∧ device.opcodeRom.length = 27 ∧
  ∀ a ∈ device.opcodeRom, ∀ b ∈ device.opcodeRom, widthBits b.width < widthBits a.width →
    a.value / 2 ^ (widthBits a.width - widthBits b.width) ≠ b.value

/-- R71: for every ROM, the probes go 11, 10, 8, 6 and the first hit decides; where none hits the word is a DecodeError. -/
def Obligations.FirstHitInProbeOrderWins : Prop :=
  ∀ (rom : OpcodeRom) (w : Word),
    (∀ m, romLookup rom .w11 (w.extractLsb' 21 11).toNat = some m → classify rom w = some (m, .r)) ∧
    (∀ m, romLookup rom .w11 (w.extractLsb' 21 11).toNat = none → romLookup rom .w10 (w.extractLsb' 22 10).toNat = some m →
      classify rom w = some (m, .i)) ∧
    (∀ m, romLookup rom .w11 (w.extractLsb' 21 11).toNat = none → romLookup rom .w10 (w.extractLsb' 22 10).toNat = none →
      romLookup rom .w8 (w.extractLsb' 24 8).toNat = some m → classify rom w = some (m, .cb)) ∧
    (∀ m, romLookup rom .w11 (w.extractLsb' 21 11).toNat = none → romLookup rom .w10 (w.extractLsb' 22 10).toNat = none →
      romLookup rom .w8 (w.extractLsb' 24 8).toNat = none → romLookup rom .w6 (w.extractLsb' 26 6).toNat = some m →
      classify rom w = some (m, .b)) ∧
    (romLookup rom .w11 (w.extractLsb' 21 11).toNat = none → romLookup rom .w10 (w.extractLsb' 22 10).toNat = none →
      romLookup rom .w8 (w.extractLsb' 24 8).toNat = none → romLookup rom .w6 (w.extractLsb' 26 6).toNat = none →
      classify rom w = none ∧
      ∀ (cond : CondRom) (lc : Nat),
        decodeTransaction rom cond lc w = .fail .decodeError w "Opcode not found --> Error with program" lc)

/-- R70, R78, R71: with one more R-format entry of a mnemonic outside the table (95_test_vectors.md L1-7), every word of that 11-bit
field is that entry's, without operands, although its 6-bit field is B's; every other word classifies as before. That the
added entry is seen at width 11 only, so that a word whose 10-, 8- or 6-bit field has its value classifies as before, is the keying by
width and value of D4 (assumption 4, DESIGN CHOICE). -/
def Obligations.AddedWideEntryWinsOverB : Prop :=
  ∀ w : Word,
    (w.extractLsb' 21 11 = 0b00010100000#11 →
      classify (device.opcodeRom ++ [⟨.w11, 0b00010100000, "TESTR"⟩]) w = some ("TESTR", .r) ∧
      classify device.opcodeRom w = some ("B", .b) ∧ shapeOf "TESTR" .r = .noOperands) ∧
    (w.extractLsb' 21 11 ≠ 0b00010100000#11 →
      classify (device.opcodeRom ++ [⟨.w11, 0b00010100000, "TESTR"⟩]) w = classify device.opcodeRom w)

/-- Words written out from the spec's encodings decode to what they stand for (R123 to R203, the examples of each rule). The patterns
but ADD's and B's are R72's defaults (assumption 1); that `B.` has its condition code in bits 3:0 is D5 (assumption 5, PRESUMED); that
0x00A00000, whose 11-bit field is B's 6-bit value, decodes to nothing is the keying of D4 (assumption 4, DESIGN CHOICE). -/
def Obligations.ExampleWordsDecode : Prop :=
  decodeWord 0x8B030041 = some (.add 1 2 3 0) ∧ decodeWord 0xD60003C0 = some (.br 30 0 0) ∧
  decodeWord 0xFFA00007 = some (.prnt 0 7 0) ∧ decodeWord 0xD3601041 = some (.lsl 1 2 4 0) ∧
  decodeWord 0xF81F83A5 = some (.stur 5 29 (-8) 0) ∧ decodeWord 0xFFE00000 = some (.halt 0) ∧
  decodeWord 0xF120013F = some (.subis 31 9 (-2048)) ∧ decodeWord 0xB4000069 = some (.cbz 3 9) ∧
  decodeWord 0x54FFFFE1 = some (.bCond 1 (-1) 0) ∧ decodeWord 0x97FFFFFD = some (.bl (-3)) ∧
  decodeWord 0x00A00000 = none

/-! ## Operands -/

/-- R84: the register names. -/
def Obligations.RegisterNames : Prop :=
  ∀ c : RegCode,
    (c.toNat < 28 → regname c = "X" ++ dec c.toNat) ∧ (c = 28#5 → regname c = "SP") ∧ (c = 29#5 → regname c = "FP") ∧
    (c = 30#5 → regname c = "LR") ∧ (c = 31#5 → regname c = "XZR")

/-- R86: the numeral of a natural number has only decimal digits, no leading zero, and the number as its value; a negative number has
the numeral of its negation after a `-`. The form beyond the source's examples is D10 (assumption 7). -/
def Obligations.DecimalNumeralsAreExact : Prop :=
  (∀ n : Nat, digitsValue (dec n).toList = n ∧ (∀ c ∈ (dec n).toList, '0' ≤ c ∧ c ≤ '9') ∧
    ((dec n).toList.head? = some '0' → n = 0 ∧ dec n = "0")) ∧
  ∀ n : Nat, 0 < n → dec (-(n : Int)) = "-" ++ dec n

/-- R9: `sext_N` is the value itself below `2^(N-1)` and is offset by `-2^N` from there on. -/
def Obligations.SignExtensionIsTheThresholdRule : Prop :=
  ∀ (n : Nat) (v : BitVec n),
    (v.toNat < 2 ^ (n - 1) → sext v = (v.toNat : Int)) ∧ (2 ^ (n - 1) ≤ v.toNat → sext v = (v.toNat : Int) - 2 ^ n)

/-- R68: the value range of every numeric operand, for every word. -/
def Obligations.OperandValueRanges : Prop :=
  ∀ w : Word,
    (shamtField w).toNat ≤ 63 ∧
    -256 ≤ sext (dtoffField w) ∧ sext (dtoffField w) ≤ 255 ∧
    -2048 ≤ sext (immField w) ∧ sext (immField w) ≤ 2047 ∧
    -262144 ≤ sext (cboffField w) ∧ sext (cboffField w) ≤ 262143 ∧
    -33554432 ≤ sext (boffField w) ∧ sext (boffField w) ≤ 33554431

/-- R69: two words of one hit that agree on the bits their shape reads give the same line at every label, for every pair of ROMs (D12,
assumption 9). That the mask of `B.` reads bits 3:0 and leaves bit 4 out is D5 (assumption 5, PRESUMED). -/
def Obligations.UnreadBitsDoNotChangeTheLine : Prop :=
  ∀ (rom : OpcodeRom) (cond : CondRom) (lc : Nat) (w w' : Word) (m : String) (fmt : Format),
    classify rom w = some (m, fmt) → classify rom w' = some (m, fmt) →
    w &&& readMask (shapeOf m fmt) m = w' &&& readMask (shapeOf m fmt) m →
    ∃ d d' line, decodeTransaction rom cond lc w = .ok d line (lc + 1) ∧ decodeTransaction rom cond lc w' = .ok d' line (lc + 1)

/-- R103, R245: only the two branch shapes read `lc`; every other operand text is the same at every label. -/
def Obligations.OnlyBranchTextReadsTheLabel : Prop :=
  ∀ (sh : Shape) (w : Word),
    (sh ≠ .conditionalBranch → sh ≠ .unconditionalBranch → ∀ lc lc' : Nat, operandText sh w lc = operandText sh w lc') ∧
    (sh = .conditionalBranch → ∀ lc : Nat, operandText sh w lc = " L" ++ dec (lc + sext (cboffField w))) ∧
    (sh = .unconditionalBranch → ∀ lc : Nat, operandText sh w lc = " L" ++ dec (lc + sext (boffField w)))

/-! ## The machine as a whole -/

/-- R102, R108: the device's step, which runs decoded instructions, is the stream machine of the spec's pseudocode for the device's
configuration, in every state. -/
def Obligations.StepIsTheStreamMachineOfTheDevice : Prop :=
  ∀ s : State, step s = stepWith device s

/-- R102, R107: the record and the line of every decoded word, with the slices, signed values and target of the word itself and the two
texts of R82 and R103 (D19, assumption 15). -/
def Obligations.DecodedWordEmitsItsRecord : Prop :=
  ∀ (s : State) (w : Word) (rest : List Event) (m : String) (fmt : Format),
    s.phase = .running → s.input = .word w :: rest → classify device.opcodeRom w = some (m, fmt) →
    step s = .next
      { lc := s.lc + 1, phase := .running, input := rest
        output := s.output ++
          [ .decoded (wordRecord m fmt (shapeOf m fmt) w s.lc (wordTarget fmt w s.lc) (mnemText device.condRom m w)
              (operandText (shapeOf m fmt) w s.lc)),
            .line ("L" ++ dec s.lc ++ ": " ++ mnemText device.condRom m w ++ operandText (shapeOf m fmt) w s.lc) ] }

/-- R41, R46: a step consumes exactly the first event presented and appends to the output: one record or error with its line for a
word, nothing for an `End` or a `Reset`. -/
def Obligations.StepConsumesOneEventAndAppends : Prop :=
  ∀ (s t : State), step s = .next t →
    ∃ ev items, s.input = ev :: t.input ∧ t.output = s.output ++ items ∧
      (∀ w, ev = .word w → (linesOf items).length = 1 ∧ items.length = 2) ∧
      ((ev = .endOfInput ∨ ev = .reset) → items = [])

/-- R26, R46: what has been put out is never read again: with other earlier output the step is the same, with that output before. -/
def Obligations.EarlierOutputIsNeverRead : Prop :=
  ∀ (s : State) (before : List Output),
    step { s with output := before ++ s.output } =
      match step s with
      | .next t => .next { t with output := before ++ t.output }
      | .fault r => .fault r
      | .refused r => .refused r

/-- R20, R46, R104, R220: in every state that meets the invariant, reached or not, a step keeps it: the label counter stays positive
and the output stays a sequence of whole transactions, each a consistent record with its own line or the error of an illegal word with
the diagnostic. -/
def Obligations.StepKeepsRunInvariant : Prop :=
  ∀ s t : State, s.ok = true → step s = .next t → t.ok = true

/-- The invariant holds after reset. -/
def Obligations.ResetMeetsRunInvariant : Prop :=
  State.reset.ok = true

/-- R110: a running block runs any sequence of words to the recursion's outputs and label counter, whatever follows them. -/
def Obligations.StreamOfWordsRunsToTheRecursion : Prop :=
  ∀ (ws : List Word) (rest : List Event) (s : State), s.phase = .running → s.input = ws.map .word ++ rest →
    Host.Core.run Sys2Proof.core ws.length s = .next
      { lc     := (sequentialDecode device.opcodeRom device.condRom s.lc ws).2
        phase  := .running
        input  := rest
        output := s.output ++ (sequentialDecode device.opcodeRom device.condRom s.lc ws).1 }

/-- R111: after a `Reset`, in the middle of a run too, the labels of the instruction lines are exactly 1 to K in order, K the number of decoded words; every line
begins with its label, every other line is the diagnostic, and there is one line for every word. That a `Reset` is an event, taken in
either phase and restarting the labels, is D13 (assumption 10, DESIGN CHOICE). -/
def Obligations.InstructionLinesAreLabelledInOrder : Prop :=
  ∀ (ws : List Word) (rest : List Event) (s : State), s.input = .reset :: (ws.map .word ++ rest) →
    ∃ items texts, Host.Core.run Sys2Proof.core (ws.length + 1) s = .next
        { lc     := 1 + decodableCount device.opcodeRom ws
          phase  := .running
          input  := rest
          output := s.output ++ items } ∧
      labelsOf items = List.range' 1 (decodableCount device.opcodeRom ws) ∧
      texts.length = decodableCount device.opcodeRom ws ∧
      instructionLines items = List.zipWith (fun n text => "L" ++ dec (n : Nat) ++ ": " ++ text)
        (List.range' 1 (decodableCount device.opcodeRom ws)) texts ∧
      diagnosticLines items =
        List.replicate (ws.length - decodableCount device.opcodeRom ws) "Opcode not found --> Error with program" ∧
      (linesOf items).length = ws.length

/-- R230, R245: classifying and rendering the label-free parts of all words first and committing in order gives exactly the sequential
outputs and label counter, for every ROM, every label and every word sequence. That parallel decode is a function over
a word sequence, and no steps of its own, is the model's choice (assumption 22, DESIGN CHOICE). -/
def Obligations.ParallelDecodeEqualsSequential : Prop :=
  ∀ (rom : OpcodeRom) (cond : CondRom) (lc : Nat) (ws : List Word),
    parallelDecode rom cond lc ws = sequentialDecode rom cond lc ws

/-! ## The finite label counter and the reader -/

/-- D8: a label counter of width `b` commits a label exactly when the next label is below `2^b`, and an illegal word is never refused
(assumption 3). -/
def Obligations.FiniteCounterRefusesExactlyOnOverflow : Prop :=
  ∀ (c : Config) (b : Nat) (s : State) (w : Word) (rest : List Event),
    c.labelW = some b → s.phase = .running → s.input = .word w :: rest →
    (classify c.opcodeRom w ≠ none → 2 ^ b ≤ s.lc + 1 → stepWith c s = .refused .labelOverflow) ∧
    (classify c.opcodeRom w ≠ none → s.lc + 1 < 2 ^ b → ∃ t, stepWith c s = .next t ∧ t.lc = s.lc + 1 ∧ t.input = rest) ∧
    (classify c.opcodeRom w = none → ∃ t, stepWith c s = .next t ∧ t.lc = s.lc ∧ t.input = rest)

/-- D8: with at most `2^b - 2` decodable words after a reset, a finite counter of width `b` gives exactly what the unbounded one gives
(assumption 3). The `Reset` event is D13's (assumption 10). -/
def Obligations.FiniteCounterAgreesWithinItsLimit : Prop :=
  ∀ (c : Config) (b : Nat) (ws : List Word) (rest : List Event) (s : State),
    1 ≤ b → c.labelW = some b → s.input = .reset :: (ws.map .word ++ rest) → decodableCount c.opcodeRom ws ≤ 2 ^ b - 2 →
    ∃ t : State, Host.Core.run (coreWith c) (ws.length + 1) s = .next t ∧
      Host.Core.run (coreWith { c with labelW := none }) (ws.length + 1) s = .next t ∧
      t.lc = 1 + decodableCount c.opcodeRom ws

/-- R43: a file of S bytes supplies exactly floor(S / 4) words, and its last S mod 4 bytes change nothing. -/
def Obligations.FileSuppliesOneWordPerFourBytes : Prop :=
  ∀ file : List Byte,
    (framedWords file).length = file.length / 4 ∧ framedWords file = framedWords (file.take (4 * (file.length / 4)))

/-- R42: word k of a file is its bytes 4k to 4k+3 in big-endian order. -/
def Obligations.WordsAreBigEndian : Prop :=
  ∀ (file : List Byte) (k : Nat) (b0 b1 b2 b3 : Byte),
    file[4 * k]? = some b0 → file[4 * k + 1]? = some b1 → file[4 * k + 2]? = some b2 → file[4 * k + 3]? = some b3 →
    ∃ w, (framedWords file)[k]? = some w ∧
      w.toNat = b0.toNat * 2 ^ 24 + b1.toNat * 2 ^ 16 + b2.toNat * 2 ^ 8 + b3.toNat

/-- The whole path from a file to its lines (R42, R43, R109, R111): from any state with nothing presented, the events of a run over any
file are all taken; the block ends in Done with one line per whole word and the labels 1 to K. That a run begins with a `Reset` is
assumption 18, that the `Reset` is taken in any state is D13 (assumption 10), and that an `End` moves to Done is D14 (assumption 11). -/
def Obligations.EveryFileIsDisassembledToItsEnd : Prop :=
  ∀ (file : List Byte) (s : State), s.input = [] →
    ∃ t items, Host.Core.run Sys2Proof.core (file.length / 4 + 2) (s.present (runEvents file)) = .next t ∧
      t.phase = .done ∧ t.input = [] ∧ t.output = s.output ++ items ∧
      t.lc = 1 + decodableCount device.opcodeRom (framedWords file) ∧
      (linesOf items).length = file.length / 4 ∧
      labelsOf items = List.range' 1 (decodableCount device.opcodeRom (framedWords file))
end

