-- ==== Sys2Proof/Laws/Decode.lean ====
section
/-! SUPPORT. Lemmas about fields, packing, the ROM lookup and classification, stated over `toNat` so that `omega` closes what is
left. -/

namespace Sys2Proof

/-! ## Sign extension -/

theorem sext_eq_toInt {n : Nat} (v : BitVec n) : sext v = v.toInt := by
  rw [sext, BitVec.toInt_eq_toNat_cond]
  rcases n with _ | n
  · have := v.isLt; simp at this; simp [this]
  · have h : 2 * v.toNat < 2 ^ (n + 1) ↔ v.toNat < 2 ^ n := by rw [pow_succ]; omega
    simp [h]

theorem ofInt_sext {n : Nat} (v : BitVec n) : BitVec.ofInt n (sext v) = v := by
  rw [sext_eq_toInt, BitVec.ofInt_toInt]

theorem two_pow_split {n : Nat} (hn : 0 < n) : (2 : Int) ^ n = 2 * 2 ^ (n - 1) := by
  obtain ⟨m, rfl⟩ : ∃ m, n = m + 1 := ⟨n - 1, by omega⟩
  simp [pow_succ]; ring

theorem sext_ofInt {n : Nat} (hn : 0 < n) (v : Int) (h : fitsSigned n v = true) : sext (BitVec.ofInt n v) = v := by
  simp only [fitsSigned, Bool.and_eq_true, decide_eq_true_eq] at h
  rw [sext_eq_toInt, BitVec.toInt_ofInt]
  have hp : ((2 ^ n : ℕ) : Int) = 2 * 2 ^ (n - 1) := by push_cast; exact two_pow_split hn
  apply Int.bmod_eq_of_le <;> omega

theorem fitsSigned_sext {n : Nat} (hn : 0 < n) (v : BitVec n) : fitsSigned n (sext v) = true := by
  have hlt : (v.toNat : Int) < 2 * 2 ^ (n - 1) := by
    rw [← two_pow_split hn]; exact_mod_cast v.isLt
  have hp := two_pow_split hn
  unfold sext
  split_ifs with h <;> simp only [fitsSigned, Bool.and_eq_true, decide_eq_true_eq]
  · have h' : (v.toNat : Int) < 2 ^ (n - 1) := by exact_mod_cast h
    omega
  · have h' : (2 : Int) ^ (n - 1) ≤ v.toNat := by exact_mod_cast Nat.le_of_not_lt h
    omega

/-! ## Fields and packing -/

theorem slice_toNat (w : Word) (lo len : Nat) : (slice w lo len).toNat = w.toNat / 2 ^ lo % 2 ^ len := by
  simp [slice, BitVec.extractLsb'_toNat, Nat.shiftRight_eq_div_pow]

theorem append_toNat {n m : Nat} (x : BitVec n) (y : BitVec m) : (x ++ y).toNat = x.toNat * 2 ^ m + y.toNat := by
  rw [BitVec.toNat_append, ← Nat.shiftLeft_add_eq_or_of_lt y.isLt, Nat.shiftLeft_eq]

theorem packR_toNat (op : BitVec 11) (rm : BitVec 5) (sh : BitVec 6) (rn rd : RegCode) :
    (packR op rm sh rn rd).toNat = op.toNat * 2 ^ 21 + rm.toNat * 2 ^ 16 + sh.toNat * 2 ^ 10 + rn.toNat * 2 ^ 5 + rd.toNat := by
  simp only [packR, BitVec.toNat_cast, append_toNat]; omega

theorem packD_toNat (op : BitVec 11) (o : Int) (op2 : BitVec 2) (rn rt : RegCode) :
    (packD op o op2 rn rt).toNat =
      op.toNat * 2 ^ 21 + (BitVec.ofInt 9 o).toNat * 2 ^ 12 + op2.toNat * 2 ^ 10 + rn.toNat * 2 ^ 5 + rt.toNat := by
  simp only [packD, BitVec.toNat_cast, append_toNat]; omega

theorem packI_toNat (op : BitVec 10) (k : Int) (rn rd : RegCode) :
    (packI op k rn rd).toNat = op.toNat * 2 ^ 22 + (BitVec.ofInt 12 k).toNat * 2 ^ 10 + rn.toNat * 2 ^ 5 + rd.toNat := by
  simp only [packI, BitVec.toNat_cast, append_toNat]; omega

theorem packCB_toNat (op : BitVec 8) (o : Int) (low : BitVec 5) :
    (packCB op o low).toNat = op.toNat * 2 ^ 24 + (BitVec.ofInt 19 o).toNat * 2 ^ 5 + low.toNat := by
  simp only [packCB, BitVec.toNat_cast, append_toNat]; omega

theorem packB_toNat (op : BitVec 6) (o : Int) :
    (packB op o).toNat = op.toNat * 2 ^ 26 + (BitVec.ofInt 26 o).toNat := by
  simp only [packB, BitVec.toNat_cast, append_toNat]

/-- Reads a field out of a packed word: both sides become numbers, and what is left is linear. -/
theorem slice_eq_of_toNat {len : Nat} (w : Word) (lo : Nat) (v : BitVec len) (h : w.toNat / 2 ^ lo % 2 ^ len = v.toNat) :
    slice w lo len = v := BitVec.eq_of_toNat_eq (by rw [slice_toNat, h])

/-! ## The ROM lookup and classification -/

/-- The value of a word's opcode field at a width (R61). -/
def opField (w : Word) : OpWidth → Nat
  | .w11 => (op11 w).toNat | .w10 => (op10 w).toNat | .w8 => (op8 w).toNat | .w6 => (op6 w).toNat

/-- A hit is an entry of the ROM at that width and value. -/
theorem romLookup_mem {rom : OpcodeRom} {k : OpWidth} {v : Nat} {m : String} (h : romLookup rom k v = some m) :
    ∃ e ∈ rom, e.width = k ∧ e.value = v ∧ e.mnem = m := by
  simp only [romLookup, Option.map_eq_some_iff] at h
  obtain ⟨e, he, hm⟩ := h
  have hp := List.find?_some he
  simp only [Bool.and_eq_true, beq_iff_eq] at hp
  exact ⟨e, List.mem_of_find?_eq_some he, hp.1, hp.2, hm⟩

/-- A classified word matches an entry of the ROM, whose mnemonic and format it gets (R71, R73). -/
theorem classify_mem {rom : OpcodeRom} {w : Word} {m : String} {fmt : Format} (h : classify rom w = some (m, fmt)) :
    ∃ e ∈ rom, opField w e.width = e.value ∧ m = e.mnem ∧ fmt = formatOf e.width := by
  have key : ∀ k, romLookup rom k (opField w k) = some m → fmt = formatOf k →
      ∃ e ∈ rom, opField w e.width = e.value ∧ m = e.mnem ∧ fmt = formatOf e.width := by
    intro k hk hf
    obtain ⟨e, he, hw, hv, hm⟩ := romLookup_mem hk
    exact ⟨e, he, by rw [hw, hv], hm.symm, by rw [hw]; exact hf⟩
  simp only [classify] at h
  split at h
  next m' h11 => cases h; exact key .w11 h11 rfl
  next _ =>
    split at h
    next m' h10 => cases h; exact key .w10 h10 rfl
    next _ =>
      split at h
      next m' h8 => cases h; exact key .w8 h8 rfl
      next _ =>
        split at h
        next m' h6 => cases h; exact key .w6 h6 rfl
        next _ => cases h

/-- A miss misses at every width. -/
theorem classify_eq_none_iff {rom : OpcodeRom} {w : Word} :
    classify rom w = none ↔ ∀ k, romLookup rom k (opField w k) = none := by
  constructor
  · intro h
    simp only [classify] at h
    split at h
    next => cases h
    next h11 =>
      split at h
      next => cases h
      next h10 =>
        split at h
        next => cases h
        next h8 =>
          split at h
          next => cases h
          next h6 => intro k; cases k <;> assumption
  · intro h
    have h11 := h .w11; have h10 := h .w10; have h8 := h .w8; have h6 := h .w6
    simp only [opField] at h11 h10 h8 h6
    simp only [classify, h11, h10, h8, h6]

theorem op10_eq_op11_div (w : Word) : (op10 w).toNat = (op11 w).toNat / 2 := by
  simp only [op10, op11, slice_toNat]; omega

theorem op8_eq_op11_div (w : Word) : (op8 w).toNat = (op11 w).toNat / 8 := by
  simp only [op8, op11, slice_toNat]; omega

theorem op6_eq_op11_div (w : Word) : (op6 w).toNat = (op11 w).toNat / 32 := by
  simp only [op6, op11, slice_toNat]; omega

/-- A word classifies by its 11-bit field alone (R61: the narrower fields are its top bits). -/
def classifyField (rom : OpcodeRom) (v : Nat) : Option (String × Format) :=
  match romLookup rom .w11 v with
  | some m => some (m, .r)
  | none =>
    match romLookup rom .w10 (v / 2) with
    | some m => some (m, .i)
    | none =>
      match romLookup rom .w8 (v / 8) with
      | some m => some (m, .cb)
      | none => (romLookup rom .w6 (v / 32)).map fun m => (m, .b)

theorem classify_eq_classifyField (rom : OpcodeRom) (w : Word) : classify rom w = classifyField rom (op11 w).toNat := by
  simp only [classify, classifyField, op10_eq_op11_div, op8_eq_op11_div, op6_eq_op11_div, formatOf]
  cases romLookup rom .w11 (op11 w).toNat <;> simp only
  cases romLookup rom .w10 ((op11 w).toNat / 2) <;> simp only
  cases romLookup rom .w8 ((op11 w).toNat / 8) <;> simp only
  cases romLookup rom .w6 ((op11 w).toNat / 32) <;> rfl

/-- The classification of a word whose 11-bit field is `v`, for any `v` the field can hold. -/
theorem classify_of_op11 {rom : OpcodeRom} {w : Word} {v : Nat} (h : (op11 w).toNat = v) :
    classify rom w = classifyField rom v := by rw [classify_eq_classifyField, h]

/-- Every mnemonic of the device's ROM is an instruction's. -/
theorem instrOf_isSome_of_mem : ∀ e ∈ device.opcodeRom, ∀ w, (instrOf e.mnem w).isSome = true := by
  intro e he w
  simp only [device, defaultOpcodeRom, romRowsR, romRowsI, romRowsCB, romRowsB, List.cons_append, List.nil_append,
    List.mem_cons, List.not_mem_nil, or_false] at he
  rcases he with rfl | rfl | rfl | rfl | rfl | rfl | rfl | rfl | rfl | rfl | rfl | rfl | rfl | rfl | rfl | rfl | rfl | rfl |
    rfl | rfl | rfl | rfl | rfl | rfl | rfl | rfl | rfl <;> rfl

/-- The decoder rejects exactly the words no probe hits (R75). -/
theorem decodeWord_eq_none_iff (w : Word) : decodeWord w = none ↔ classify device.opcodeRom w = none := by
  simp only [decodeWord]
  split
  next m fmt h =>
    obtain ⟨e, he, _, rfl, _⟩ := classify_mem h
    have := instrOf_isSome_of_mem e he w
    simp [Option.isSome_iff_ne_none.mp this, h]
  next h => simp [h]

/-- What the decoder answers for a word that classifies. -/
theorem decodeWord_of_classify {w : Word} {m : String} {fmt : Format} (h : classify device.opcodeRom w = some (m, fmt)) :
    decodeWord w = instrOf m w := by simp only [decodeWord, h]

end Sys2Proof
end

