-- ==== Sys2Proof/Laws/State.lean ====
section
/-! SUPPORT. One lemma per field per update of State, so that no proof unfolds a record update. -/

namespace Sys2Proof.Machine

variable (s : State) (v : Nat) (p : Phase) (evs : List Event) (items : List Output)

@[simp] theorem setLc_lc : (s.setLc v).lc = v := rfl
@[simp] theorem setLc_phase : (s.setLc v).phase = s.phase := rfl
@[simp] theorem setLc_input : (s.setLc v).input = s.input := rfl
@[simp] theorem setLc_output : (s.setLc v).output = s.output := rfl
@[simp] theorem setPhase_lc : (s.setPhase p).lc = s.lc := rfl
@[simp] theorem setPhase_phase : (s.setPhase p).phase = p := rfl
@[simp] theorem setPhase_input : (s.setPhase p).input = s.input := rfl
@[simp] theorem setPhase_output : (s.setPhase p).output = s.output := rfl
@[simp] theorem setInput_lc : (s.setInput evs).lc = s.lc := rfl
@[simp] theorem setInput_phase : (s.setInput evs).phase = s.phase := rfl
@[simp] theorem setInput_input : (s.setInput evs).input = evs := rfl
@[simp] theorem setInput_output : (s.setInput evs).output = s.output := rfl
@[simp] theorem emit_lc : (s.emit items).lc = s.lc := rfl
@[simp] theorem emit_phase : (s.emit items).phase = s.phase := rfl
@[simp] theorem emit_input : (s.emit items).input = s.input := rfl
@[simp] theorem emit_output : (s.emit items).output = s.output ++ items := rfl
@[simp] theorem present_lc : (s.present evs).lc = s.lc := rfl
@[simp] theorem present_phase : (s.present evs).phase = s.phase := rfl
@[simp] theorem present_input : (s.present evs).input = s.input ++ evs := rfl
@[simp] theorem present_output : (s.present evs).output = s.output := rfl

/-- A state is its four fields. -/
theorem State.ext_fields {s t : State} (hl : s.lc = t.lc) (hp : s.phase = t.phase) (hi : s.input = t.input)
    (ho : s.output = t.output) : s = t := by
  cases s; cases t; cases hl; cases hp; cases hi; cases ho; rfl

end Sys2Proof.Machine
end

