-- ==== Sys2Proof/Laws/Ops.lean ====
section
/-! SUPPORT. What each shared operation can do, said once. -/

namespace Sys2Proof.Machine

@[simp] theorem labelFits_none (v : Nat) : labelFits none v = true := rfl

@[simp] theorem device_labelW : device.labelW = none := rfl

/-- A commit answers a next state exactly where the next label fits, and that state is fixed. -/
theorem commitDecoded_eq (c : Config) (d : DecodedRecord) (s : State) :
    commitDecoded c d s =
      if labelFits c.labelW (s.lc + 1) then .next ((s.emit (decodedOutputs d)).setLc (s.lc + 1)) else .refused .labelOverflow := rfl

/-- On the device a commit always answers. -/
theorem commitDecoded_device (d : DecodedRecord) (s : State) :
    commitDecoded device d s = .next ((s.emit (decodedOutputs d)).setLc (s.lc + 1)) := rfl

/-- What the shared meaning of every instruction answers. -/
theorem decodeInstr_eq (m : String) (fmt : Format) (sh : Shape) (mt ops : String) (i : Instr) (s : State) :
    decodeInstr m fmt sh mt ops i s =
      .next ((s.emit (decodedOutputs (recordOf m fmt sh (encode i) s.lc mt ops))).setLc (s.lc + 1)) := rfl

theorem takeDecodeError_eq (w : Word) (s : State) : takeDecodeError w s = .next (s.emit (errorOutputs w)) := rfl

theorem endRun_eq (s : State) : endRun s = .next (s.setPhase .done) := rfl

theorem resetBlock_eq (s : State) : resetBlock s = .next ((s.setLc 1).setPhase .running) := rfl

section Record

variable (m : String) (fmt : Format) (sh : Shape) (w : Word) (lc : Nat) (mt ops : String)

@[simp] theorem recordOf_mnem : (recordOf m fmt sh w lc mt ops).mnem = m := rfl
@[simp] theorem recordOf_fmt : (recordOf m fmt sh w lc mt ops).fmt = fmt := rfl
@[simp] theorem recordOf_shape : (recordOf m fmt sh w lc mt ops).shape = sh := rfl
@[simp] theorem recordOf_label : (recordOf m fmt sh w lc mt ops).label = lc := rfl
@[simp] theorem recordOf_cboff : (recordOf m fmt sh w lc mt ops).cboff = sext (cboffField w) := rfl
@[simp] theorem recordOf_boff : (recordOf m fmt sh w lc mt ops).boff = sext (boffField w) := rfl
@[simp] theorem recordOf_target : (recordOf m fmt sh w lc mt ops).target = targetOf fmt w lc := rfl
@[simp] theorem recordOf_mnemtext : (recordOf m fmt sh w lc mt ops).mnemtext = mt := rfl
@[simp] theorem recordOf_operandtext : (recordOf m fmt sh w lc mt ops).operandtext = ops := rfl

/-- The line of a record (R104). -/
theorem lineOf_recordOf : lineOf (recordOf m fmt sh w lc mt ops) = "L" ++ dec lc ++ ": " ++ mt ++ ops := rfl

end Record

end Sys2Proof.Machine
end

