-- ==== Sys2Proof/Laws/PerInstr.lean ====
section
/-! SUPPORT. The family RoundTrip: the decoder reads every well-formed instruction back from the word the encoder gives it, one lemma
per constructor. -/

namespace Sys2Proof.Laws.RoundTrip

/-- Decoding the word of a well-formed instruction gives the instruction back. -/
def Statement (i : Instr) : Prop := i.wf = true → decodeWord (encode i) = some i

/-- A word with a known 11-bit field goes to the instruction of the mnemonic that the field classifies to. -/
theorem decode_of_field {w : Word} {v : Nat} {m : String} {fmt : Format} {i : Instr} (hv : (op11 w).toNat = v)
    (hc : classifyField device.opcodeRom v = some (m, fmt)) (hi : instrOf m w = some i) : decodeWord w = some i := by
  rw [decodeWord_of_classify ((classify_of_op11 hv).trans hc), hi]

/-- A word with a known 10-bit field has one of two 11-bit fields. -/
theorem decode_of_field10 {w : Word} {v : Nat} {m : String} {fmt : Format} {i : Instr} (hv : (op11 w).toNat / 2 = v)
    (hc : ∀ j < 2, classifyField device.opcodeRom (v * 2 + j) = some (m, fmt)) (hi : instrOf m w = some i) :
    decodeWord w = some i :=
  decode_of_field (v := v * 2 + (op11 w).toNat % 2) (by omega) (hc _ (Nat.mod_lt _ (by omega))) hi

/-- A word with a known 8-bit field has one of eight 11-bit fields. -/
theorem decode_of_field8 {w : Word} {v : Nat} {m : String} {fmt : Format} {i : Instr} (hv : (op11 w).toNat / 8 = v)
    (hc : ∀ j < 8, classifyField device.opcodeRom (v * 8 + j) = some (m, fmt)) (hi : instrOf m w = some i) :
    decodeWord w = some i :=
  decode_of_field (v := v * 8 + (op11 w).toNat % 8) (by omega) (hc _ (Nat.mod_lt _ (by omega))) hi

/-- A word with a known 6-bit field has one of thirty-two 11-bit fields. -/
theorem decode_of_field6 {w : Word} {v : Nat} {m : String} {fmt : Format} {i : Instr} (hv : (op11 w).toNat / 32 = v)
    (hc : ∀ j < 32, classifyField device.opcodeRom (v * 32 + j) = some (m, fmt)) (hi : instrOf m w = some i) :
    decodeWord w = some i :=
  decode_of_field (v := v * 32 + (op11 w).toNat % 32) (by omega) (hc _ (Nat.mod_lt _ (by omega))) hi

section Packed

variable (op : BitVec 11) (rm : BitVec 5) (sh : BitVec 6) (rn rd : RegCode)

theorem packR_op11 : (op11 (packR op rm sh rn rd)).toNat = op.toNat := by
  simp only [op11, slice_toNat, packR_toNat]; omega

theorem packR_rd : rdField (packR op rm sh rn rd) = rd := slice_eq_of_toNat _ _ _ (by rw [packR_toNat]; omega)
theorem packR_rn : rnField (packR op rm sh rn rd) = rn := slice_eq_of_toNat _ _ _ (by rw [packR_toNat]; omega)
theorem packR_rm : rmField (packR op rm sh rn rd) = rm := slice_eq_of_toNat _ _ _ (by rw [packR_toNat]; omega)
theorem packR_shamt : shamtField (packR op rm sh rn rd) = sh := slice_eq_of_toNat _ _ _ (by rw [packR_toNat]; omega)

variable (o : Int) (op2 : BitVec 2)

theorem packD_op11 : (op11 (packD op o op2 rn rd)).toNat = op.toNat := by
  simp only [op11, slice_toNat, packD_toNat]; omega

theorem packD_rt : rtField (packD op o op2 rn rd) = rd := slice_eq_of_toNat _ _ _ (by rw [packD_toNat]; omega)
theorem packD_rn : rnField (packD op o op2 rn rd) = rn := slice_eq_of_toNat _ _ _ (by rw [packD_toNat]; omega)
theorem packD_dtoff : dtoffField (packD op o op2 rn rd) = BitVec.ofInt 9 o := slice_eq_of_toNat _ _ _ (by rw [packD_toNat]; omega)
theorem packD_op2 : slice (packD op o op2 rn rd) 10 2 = op2 := slice_eq_of_toNat _ _ _ (by rw [packD_toNat]; omega)

variable (op' : BitVec 10)

theorem packI_op11 : (op11 (packI op' o rn rd)).toNat / 2 = op'.toNat := by
  simp only [op11, slice_toNat, packI_toNat]; omega

theorem packI_rd : rdField (packI op' o rn rd) = rd := slice_eq_of_toNat _ _ _ (by rw [packI_toNat]; omega)
theorem packI_rn : rnField (packI op' o rn rd) = rn := slice_eq_of_toNat _ _ _ (by rw [packI_toNat]; omega)
theorem packI_imm : immField (packI op' o rn rd) = BitVec.ofInt 12 o := slice_eq_of_toNat _ _ _ (by rw [packI_toNat]; omega)

variable (op8v : BitVec 8) (low : BitVec 5) (u : BitVec 1) (c : CondCode)

theorem packCB_op11 : (op11 (packCB op8v o low)).toNat / 8 = op8v.toNat := by
  simp only [op11, slice_toNat, packCB_toNat]; omega

theorem packCB_cboff : cboffField (packCB op8v o low) = BitVec.ofInt 19 o := slice_eq_of_toNat _ _ _ (by rw [packCB_toNat]; omega)
theorem packCB_low : slice (packCB op8v o low) 0 5 = low := slice_eq_of_toNat _ _ _ (by rw [packCB_toNat]; omega)
theorem packCB_cond : condField (packCB op8v o (u ++ c)) = c :=
  slice_eq_of_toNat _ _ _ (by rw [packCB_toNat, append_toNat]; omega)
theorem packCB_bit4 : slice (packCB op8v o (u ++ c)) 4 1 = u :=
  slice_eq_of_toNat _ _ _ (by rw [packCB_toNat, append_toNat]; omega)

variable (op6v : BitVec 6)

theorem packB_op11 : (op11 (packB op6v o)).toNat / 32 = op6v.toNat := by
  simp only [op11, slice_toNat, packB_toNat]; omega

theorem packB_boff : boffField (packB op6v o) = BitVec.ofInt 26 o := slice_eq_of_toNat _ _ _ (by rw [packB_toNat]; omega)

end Packed

theorem add (rd rn rm : RegCode) (u : BitVec 6) : Statement (.add rd rn rm u) := fun _ =>
  decode_of_field (packR_op11 0x458#11 rm u rn rd) (m := "ADD") (fmt := .r) (by decide)
    (by simp only [encode, instrOf, packR_rd, packR_rn, packR_rm, packR_shamt])

theorem and (rd rn rm : RegCode) (u : BitVec 6) : Statement (.and rd rn rm u) := fun _ =>
  decode_of_field (packR_op11 0x450#11 rm u rn rd) (m := "AND") (fmt := .r) (by decide)
    (by simp only [encode, instrOf, packR_rd, packR_rn, packR_rm, packR_shamt])

theorem eor (rd rn rm : RegCode) (u : BitVec 6) : Statement (.eor rd rn rm u) := fun _ =>
  decode_of_field (packR_op11 0x650#11 rm u rn rd) (m := "EOR") (fmt := .r) (by decide)
    (by simp only [encode, instrOf, packR_rd, packR_rn, packR_rm, packR_shamt])

theorem orr (rd rn rm : RegCode) (u : BitVec 6) : Statement (.orr rd rn rm u) := fun _ =>
  decode_of_field (packR_op11 0x550#11 rm u rn rd) (m := "ORR") (fmt := .r) (by decide)
    (by simp only [encode, instrOf, packR_rd, packR_rn, packR_rm, packR_shamt])

theorem sub (rd rn rm : RegCode) (u : BitVec 6) : Statement (.sub rd rn rm u) := fun _ =>
  decode_of_field (packR_op11 0x658#11 rm u rn rd) (m := "SUB") (fmt := .r) (by decide)
    (by simp only [encode, instrOf, packR_rd, packR_rn, packR_rm, packR_shamt])

theorem subs (rd rn rm : RegCode) (u : BitVec 6) : Statement (.subs rd rn rm u) := fun _ =>
  decode_of_field (packR_op11 0x758#11 rm u rn rd) (m := "SUBS") (fmt := .r) (by decide)
    (by simp only [encode, instrOf, packR_rd, packR_rn, packR_rm, packR_shamt])

theorem mul (rd rn rm : RegCode) (u : BitVec 6) : Statement (.mul rd rn rm u) := fun _ =>
  decode_of_field (packR_op11 0x4D8#11 rm u rn rd) (m := "MUL") (fmt := .r) (by decide)
    (by simp only [encode, instrOf, packR_rd, packR_rn, packR_rm, packR_shamt])

theorem br (rn : RegCode) (hi : BitVec 11) (lo : BitVec 5) : Statement (.br rn hi lo) := fun _ => by
  have hw : (encode (.br rn hi lo)).toNat = 0x6B0 * 2 ^ 21 + hi.toNat * 2 ^ 10 + rn.toNat * 2 ^ 5 + lo.toNat := by
    simp only [encode, BitVec.toNat_cast, append_toNat, BitVec.toNat_ofNat]; omega
  refine decode_of_field (v := 0x6B0) (m := "BR") (fmt := .r) (by simp only [op11, slice_toNat, hw]; omega) (by decide) ?_
  rw [instrOf, rnField, slice_eq_of_toNat _ 5 rn (by rw [hw]; omega), slice_eq_of_toNat _ 10 hi (by rw [hw]; omega),
    slice_eq_of_toNat _ 0 lo (by rw [hw]; omega)]

theorem lsl (rd rn : RegCode) (n : Nat) (u : BitVec 5) : Statement (.lsl rd rn n u) := fun h => by
  have hn : (BitVec.ofNat 6 n).toNat = n := by
    simp only [Instr.wf, fitsUnsigned, decide_eq_true_eq] at h
    rw [BitVec.toNat_ofNat, Nat.mod_eq_of_lt h]
  refine decode_of_field (packR_op11 0x69B#11 u (BitVec.ofNat 6 n) rn rd) (m := "LSL") (fmt := .r) (by decide) ?_
  have hu : slice (encode (.lsl rd rn n u)) 16 5 = u := packR_rm ..
  simp only [encode] at hu
  simp only [encode, instrOf, packR_rd, packR_rn, packR_shamt, hn, hu]

theorem lsr (rd rn : RegCode) (n : Nat) (u : BitVec 5) : Statement (.lsr rd rn n u) := fun h => by
  have hn : (BitVec.ofNat 6 n).toNat = n := by
    simp only [Instr.wf, fitsUnsigned, decide_eq_true_eq] at h
    rw [BitVec.toNat_ofNat, Nat.mod_eq_of_lt h]
  refine decode_of_field (packR_op11 0x69A#11 u (BitVec.ofNat 6 n) rn rd) (m := "LSR") (fmt := .r) (by decide) ?_
  have hu : slice (encode (.lsr rd rn n u)) 16 5 = u := packR_rm ..
  simp only [encode] at hu
  simp only [encode, instrOf, packR_rd, packR_rn, packR_shamt, hn, hu]

theorem prnt (rn rd : RegCode) (u : BitVec 11) : Statement (.prnt rn rd u) := fun _ => by
  have hw : (encode (.prnt rn rd u)).toNat = 0x7FD * 2 ^ 21 + u.toNat * 2 ^ 10 + rn.toNat * 2 ^ 5 + rd.toNat := by
    simp only [encode, BitVec.toNat_cast, append_toNat, BitVec.toNat_ofNat]; omega
  refine decode_of_field (v := 0x7FD) (m := "PRNT") (fmt := .r) (by simp only [op11, slice_toNat, hw]; omega) (by decide) ?_
  rw [instrOf, rnField, rdField, slice_eq_of_toNat _ 5 rn (by rw [hw]; omega), slice_eq_of_toNat _ 0 rd (by rw [hw]; omega),
    slice_eq_of_toNat _ 10 u (by rw [hw]; omega)]

theorem ldur (rt rn : RegCode) (o : Int) (u : BitVec 2) : Statement (.ldur rt rn o u) := fun h =>
  decode_of_field (packD_op11 0x7C2#11 rn rt o u) (m := "LDUR") (fmt := .r) (by decide)
    (by simp only [encode, instrOf, packD_rt, packD_rn, packD_dtoff, packD_op2, sext_ofInt (by omega) o h])

theorem stur (rt rn : RegCode) (o : Int) (u : BitVec 2) : Statement (.stur rt rn o u) := fun h =>
  decode_of_field (packD_op11 0x7C0#11 rn rt o u) (m := "STUR") (fmt := .r) (by decide)
    (by simp only [encode, instrOf, packD_rt, packD_rn, packD_dtoff, packD_op2, sext_ofInt (by omega) o h])

theorem prnl (u : BitVec 21) : Statement (.prnl u) := fun _ => by
  have hw : (encode (.prnl u)).toNat = 0x7FC * 2 ^ 21 + u.toNat := by
    simp only [encode, BitVec.toNat_cast, append_toNat, BitVec.toNat_ofNat]
  refine decode_of_field (v := 0x7FC) (m := "PRNL") (fmt := .r) (by simp only [op11, slice_toNat, hw]; omega) (by decide) ?_
  rw [instrOf, slice_eq_of_toNat _ 0 u (by rw [hw]; omega)]

theorem dump (u : BitVec 21) : Statement (.dump u) := fun _ => by
  have hw : (encode (.dump u)).toNat = 0x7FE * 2 ^ 21 + u.toNat := by
    simp only [encode, BitVec.toNat_cast, append_toNat, BitVec.toNat_ofNat]
  refine decode_of_field (v := 0x7FE) (m := "DUMP") (fmt := .r) (by simp only [op11, slice_toNat, hw]; omega) (by decide) ?_
  rw [instrOf, slice_eq_of_toNat _ 0 u (by rw [hw]; omega)]

theorem halt (u : BitVec 21) : Statement (.halt u) := fun _ => by
  have hw : (encode (.halt u)).toNat = 0x7FF * 2 ^ 21 + u.toNat := by
    simp only [encode, BitVec.toNat_cast, append_toNat, BitVec.toNat_ofNat]
  refine decode_of_field (v := 0x7FF) (m := "HALT") (fmt := .r) (by simp only [op11, slice_toNat, hw]; omega) (by decide) ?_
  rw [instrOf, slice_eq_of_toNat _ 0 u (by rw [hw]; omega)]

theorem addi (rd rn : RegCode) (k : Int) : Statement (.addi rd rn k) := fun h =>
  decode_of_field10 (packI_op11 rn rd k 0x244#10) (m := "ADDI") (fmt := .i) (by decide)
    (by simp only [encode, instrOf, packI_rd, packI_rn, packI_imm, sext_ofInt (by omega) k h])

theorem andi (rd rn : RegCode) (k : Int) : Statement (.andi rd rn k) := fun h =>
  decode_of_field10 (packI_op11 rn rd k 0x248#10) (m := "ANDI") (fmt := .i) (by decide)
    (by simp only [encode, instrOf, packI_rd, packI_rn, packI_imm, sext_ofInt (by omega) k h])

theorem eori (rd rn : RegCode) (k : Int) : Statement (.eori rd rn k) := fun h =>
  decode_of_field10 (packI_op11 rn rd k 0x348#10) (m := "EORI") (fmt := .i) (by decide)
    (by simp only [encode, instrOf, packI_rd, packI_rn, packI_imm, sext_ofInt (by omega) k h])

theorem orri (rd rn : RegCode) (k : Int) : Statement (.orri rd rn k) := fun h =>
  decode_of_field10 (packI_op11 rn rd k 0x2C8#10) (m := "ORRI") (fmt := .i) (by decide)
    (by simp only [encode, instrOf, packI_rd, packI_rn, packI_imm, sext_ofInt (by omega) k h])

theorem subi (rd rn : RegCode) (k : Int) : Statement (.subi rd rn k) := fun h =>
  decode_of_field10 (packI_op11 rn rd k 0x344#10) (m := "SUBI") (fmt := .i) (by decide)
    (by simp only [encode, instrOf, packI_rd, packI_rn, packI_imm, sext_ofInt (by omega) k h])

theorem subis (rd rn : RegCode) (k : Int) : Statement (.subis rd rn k) := fun h =>
  decode_of_field10 (packI_op11 rn rd k 0x3C4#10) (m := "SUBIS") (fmt := .i) (by decide)
    (by simp only [encode, instrOf, packI_rd, packI_rn, packI_imm, sext_ofInt (by omega) k h])

theorem cbz (o : Int) (u : BitVec 5) : Statement (.cbz o u) := fun h =>
  decode_of_field8 (packCB_op11 o 0xB4#8 u) (m := "CBZ") (fmt := .cb) (by decide)
    (by simp only [encode, instrOf, packCB_cboff, packCB_low, sext_ofInt (by omega) o h])

theorem cbnz (o : Int) (u : BitVec 5) : Statement (.cbnz o u) := fun h =>
  decode_of_field8 (packCB_op11 o 0xB5#8 u) (m := "CBNZ") (fmt := .cb) (by decide)
    (by simp only [encode, instrOf, packCB_cboff, packCB_low, sext_ofInt (by omega) o h])

theorem bCond (c : CondCode) (o : Int) (u : BitVec 1) : Statement (.bCond c o u) := fun h =>
  decode_of_field8 (packCB_op11 o 0x54#8 (u ++ c)) (m := "B.") (fmt := .cb) (by decide)
    (by simp only [encode, instrOf, packCB_cboff, packCB_cond, packCB_bit4, sext_ofInt (by omega) o h])

theorem b (o : Int) : Statement (.b o) := fun h =>
  decode_of_field6 (packB_op11 o 0x05#6) (m := "B") (fmt := .b) (by decide)
    (by simp only [encode, instrOf, packB_boff, sext_ofInt (by omega) o h])

theorem bl (o : Int) : Statement (.bl o) := fun h =>
  decode_of_field6 (packB_op11 o 0x25#6) (m := "BL") (fmt := .b) (by decide)
    (by simp only [encode, instrOf, packB_boff, sext_ofInt (by omega) o h])

end Sys2Proof.Laws.RoundTrip
end

