-- ==== Sys2Proof/Laws/Step.lean ====
section
/-! SUPPORT. Everything an instruction and a step can do, said once; invariants and frames are derived from these two lemmas. -/

namespace Sys2Proof.Machine

/-- Whether a mnemonic and format are a row of the device's ROM. -/
def isRow (m : String) (fmt : Format) : Bool :=
  device.opcodeRom.any fun e => e.mnem == m && formatOf e.width == fmt

/-- Every instruction answers a next state: its row's record and line go out, and the label counter is one more. -/
theorem exec_cases (i : Instr) (s : State) : ∃ m fmt mt ops, isRow m fmt = true ∧
    exec i s = .next ((s.emit (decodedOutputs (recordOf m fmt (shapeOf m fmt) (encode i) s.lc mt ops))).setLc (s.lc + 1)) := by
  cases i <;> exact ⟨_, _, _, _, by decide, rfl⟩

/-- What a step that answers a next state has done: it took the first event presented, and that was a reset, the end of input, a word
that decodes, or an illegal word. -/
theorem step_cases {s t : State} (h : step s = .next t) : ∃ ev rest, s.input = ev :: rest ∧
    ((ev = .reset ∧ t = ((s.setInput rest).setLc 1).setPhase .running) ∨
     (s.phase = .running ∧ ev = .endOfInput ∧ t = (s.setInput rest).setPhase .done) ∨
     (∃ w i, s.phase = .running ∧ ev = .word w ∧ decodeWord w = some i ∧ exec i (s.setInput rest) = .next t) ∨
     (∃ w, s.phase = .running ∧ ev = .word w ∧ decodeWord w = none ∧ t = (s.setInput rest).emit (errorOutputs w))) := by
  unfold step runNext at h
  split at h
  next => cases h
  next ev rest hin =>
    refine ⟨ev, rest, hin, ?_⟩
    unfold runEvent at h
    split at h
    next => cases h; exact .inl ⟨rfl, rfl⟩
    next w hp =>
      unfold runWord at h
      split at h
      next i hd => exact .inr (.inr (.inl ⟨w, i, hp, rfl, hd, h⟩))
      next hd => cases h; exact .inr (.inr (.inr ⟨w, hp, rfl, hd, rfl⟩))
    next hp => cases h; exact .inr (.inl ⟨hp, rfl, rfl⟩)
    next => cases h
    next => cases h

end Sys2Proof.Machine
end

