-- ==== Sys2Proof/Laws/Run.lean ====
section
/-! SUPPORT. Running several steps: one step at a time, on the device and on a configuration's stream machine. -/

namespace Sys2Proof.Machine

theorem core_run_zero (s : State) : Host.Core.run Sys2Proof.core 0 s = .next s := rfl

/-- A run goes on from the state its first step answers. -/
theorem core_run_of_next {k : Nat} {s t : State} (h : step s = .next t) :
    Host.Core.run Sys2Proof.core (k + 1) s = Host.Core.run Sys2Proof.core k t := by
  have h' : Sys2Proof.core.step s = .next t := h
  simp only [Host.Core.run, h']

theorem coreWith_run_zero (c : Config) (s : State) : Host.Core.run (coreWith c) 0 s = .next s := rfl

@[inherit_doc core_run_of_next]
theorem coreWith_run_of_next {c : Config} {k : Nat} {s t : State} (h : stepWith c s = .next t) :
    Host.Core.run (coreWith c) (k + 1) s = Host.Core.run (coreWith c) k t := by
  have h' : (coreWith c).step s = .next t := h
  simp only [Host.Core.run, h']

end Sys2Proof.Machine
end

