-- ==== Sys2Proof/Tests/Slice0.lean ====
section
/-! SUPPORT. The model's own tests: the WellFormed smoke test, each instruction's word written out from the spec's encoding, the worked
examples and vectors of 95_test_vectors.md and of the instruction rules, and a witness for each statement's hypotheses. -/

namespace Sys2Proof.Tests

open Sys2Proof.Machine

/-! ## WellFormed: each check refuses an ill-formed term and admits its boundary (R68) -/

theorem test_wf_shamt_refused : (Instr.lsl 0 0 64 0).wf = false ∧ (Instr.lsr 0 0 64 0).wf = false := by decide
theorem test_wf_offset9_refused : (Instr.ldur 0 0 256 0).wf = false ∧ (Instr.stur 0 0 (-257) 0).wf = false := by decide
theorem test_wf_imm_refused : (Instr.addi 0 0 2048).wf = false ∧ (Instr.subis 0 0 (-2049)).wf = false := by decide
theorem test_wf_offset19_refused : (Instr.cbz 262144 0).wf = false ∧ (Instr.bCond 0 (-262145) 0).wf = false := by decide
theorem test_wf_offset26_refused : (Instr.b 33554432).wf = false ∧ (Instr.bl (-33554433)).wf = false := by decide
theorem test_wf_boundaries : (Instr.lsl 0 0 63 0).wf = true ∧ (Instr.ldur 0 0 (-256) 0).wf = true ∧ (Instr.andi 0 0 2047).wf = true ∧
    (Instr.cbnz (-262144) 0).wf = true ∧ (Instr.b 33554431).wf = true := by decide

/-! ## Each instruction's decoding: its word written field by field from R62 to R66 and R72 -/

theorem test_decode_add : decodeWord 0b10001011000_00011_000000_00010_00001 = some (.add 1 2 3 0) ∧ encode (.add 1 2 3 0) = 0x8B030041 := by decide
theorem test_decode_and : decodeWord 0b10001010000_01011_000000_01010_01001 = some (.and 9 10 11 0) ∧ encode (.and 9 10 11 0) = 0x8A0B0149 := by decide
theorem test_decode_eor : decodeWord 0b11001010000_00110_000000_00101_00100 = some (.eor 4 5 6 0) ∧ encode (.eor 4 5 6 0) = 0xCA0600A4 := by decide
theorem test_decode_orr : decodeWord 0b10101010000_11101_000000_11100_11011 = some (.orr 27 28 29 0) ∧ encode (.orr 27 28 29 0) = 0xAA1D039B := by decide
theorem test_decode_sub : decodeWord 0b11001011000_00000_000000_11111_11110 = some (.sub 30 31 0 0) ∧ encode (.sub 30 31 0 0) = 0xCB0003FE := by decide
theorem test_decode_subs : decodeWord 0b11101011000_00010_000000_00001_11111 = some (.subs 31 1 2 0) ∧ encode (.subs 31 1 2 0) = 0xEB02003F := by decide
theorem test_decode_mul : decodeWord 0b10011011000_10101_000000_10100_10011 = some (.mul 19 20 21 0) ∧ encode (.mul 19 20 21 0) = 0x9B150293 := by decide
theorem test_decode_br : decodeWord 0b11010110000_00000000000_11110_00000 = some (.br 30 0 0) ∧ encode (.br 30 0 0) = 0xD60003C0 := by decide
theorem test_decode_prnt : decodeWord 0b11111111101_00000000000_00000_00111 = some (.prnt 0 7 0) ∧ encode (.prnt 0 7 0) = 0xFFA00007 := by decide
theorem test_decode_lsl : decodeWord 0b11010011011_00000_000100_00010_00001 = some (.lsl 1 2 4 0) ∧ encode (.lsl 1 2 4 0) = 0xD3601041 := by decide
theorem test_decode_lsr : decodeWord 0b11010011010_00000_111111_00011_00011 = some (.lsr 3 3 63 0) ∧ encode (.lsr 3 3 63 0) = 0xD340FC63 := by decide
theorem test_decode_ldur : decodeWord 0b11111000010_000001000_00_11100_00000 = some (.ldur 0 28 8 0) ∧ encode (.ldur 0 28 8 0) = 0xF8408380 := by decide
theorem test_decode_stur : decodeWord 0b11111000000_111111000_00_11101_00101 = some (.stur 5 29 (-8) 0) ∧ encode (.stur 5 29 (-8) 0) = 0xF81F83A5 := by decide
theorem test_decode_prnl : decodeWord 0b11111111100_000000000000000000000 = some (.prnl 0) ∧ encode (.prnl 0) = 0xFF800000 := by decide
theorem test_decode_dump : decodeWord 0b11111111110_000000000000000000000 = some (.dump 0) ∧ encode (.dump 0) = 0xFFC00000 := by decide
theorem test_decode_halt : decodeWord 0b11111111111_000000000000000000000 = some (.halt 0) ∧ encode (.halt 0) = 0xFFE00000 := by decide
theorem test_decode_addi : decodeWord 0b1001000100_000000000001_00001_00001 = some (.addi 1 1 1) ∧ encode (.addi 1 1 1) = 0x91000421 := by decide
theorem test_decode_andi : decodeWord 0b1001001000_000011111111_00011_00010 = some (.andi 2 3 255) ∧ encode (.andi 2 3 255) = 0x9203FC62 := by decide
theorem test_decode_eori : decodeWord 0b1101001000_111111111111_00101_00100 = some (.eori 4 5 (-1)) ∧ encode (.eori 4 5 (-1)) = 0xD23FFCA4 := by decide
theorem test_decode_orri : decodeWord 0b1011001000_011111111111_00111_00110 = some (.orri 6 7 2047) ∧ encode (.orri 6 7 2047) = 0xB21FFCE6 := by decide
theorem test_decode_subi : decodeWord 0b1101000100_000000010000_11100_11100 = some (.subi 28 28 16) ∧ encode (.subi 28 28 16) = 0xD100439C := by decide
theorem test_decode_subis : decodeWord 0b1111000100_100000000000_01001_11111 = some (.subis 31 9 (-2048)) ∧ encode (.subis 31 9 (-2048)) = 0xF120013F := by decide
theorem test_decode_cbz : decodeWord 0b10110100_0000000000000000011_01001 = some (.cbz 3 9) ∧ encode (.cbz 3 9) = 0xB4000069 := by decide
theorem test_decode_cbnz : decodeWord 0b10110101_1111111111111111110_00001 = some (.cbnz (-2) 1) ∧ encode (.cbnz (-2) 1) = 0xB5FFFFC1 := by decide
theorem test_decode_bCond : decodeWord 0b01010100_1111111111111111111_0_0001 = some (.bCond 1 (-1) 0) ∧ encode (.bCond 1 (-1) 0) = 0x54FFFFE1 := by decide
theorem test_decode_b : decodeWord 0b000101_00000000000000000000000001 = some (.b 1) ∧ encode (.b 1) = 0x14000001 := by decide
theorem test_decode_bl : decodeWord 0b100101_11111111111111111111111101 = some (.bl (-3)) ∧ encode (.bl (-3)) = 0x97FFFFFD := by decide

/-! ## Each instruction's line and label commit: the example of its rule, at lc 5 -/

/-- A running block at label `lc` to which the host presents the word `w`. -/
def stateAt (lc : Nat) (w : Word) : State := { lc := lc, phase := .running, input := [.word w], output := [] }

/-- The lines put out and the label counter after one step. -/
def stepLines (s : State) : Option (List String × Nat) :=
  match step s with
  | .next t => some (linesOf t.output, t.lc)
  | .fault _ => none
  | .refused _ => none

theorem test_line_add : stepLines (stateAt 5 0x8B030041) = some (["L5: ADD X1, X2, X3"], 6) := by decide
theorem test_line_and : stepLines (stateAt 5 0x8A0B0149) = some (["L5: AND X9, X10, X11"], 6) := by decide
theorem test_line_eor : stepLines (stateAt 5 0xCA0600A4) = some (["L5: EOR X4, X5, X6"], 6) := by decide
theorem test_line_orr : stepLines (stateAt 5 0xAA1D039B) = some (["L5: ORR X27, SP, FP"], 6) := by decide
theorem test_line_sub : stepLines (stateAt 5 0xCB0003FE) = some (["L5: SUB LR, XZR, X0"], 6) := by decide
theorem test_line_subs : stepLines (stateAt 5 0xEB02003F) = some (["L5: SUBS XZR, X1, X2"], 6) := by decide
theorem test_line_mul : stepLines (stateAt 5 0x9B150293) = some (["L5: MUL X19, X20, X21"], 6) := by decide
theorem test_line_br : stepLines (stateAt 5 0xD60003C0) = some (["L5: BR LR"], 6) := by decide
theorem test_line_prnt : stepLines (stateAt 5 0xFFA00007) = some (["L5: PRNT X0, X7"], 6) := by decide
theorem test_line_lsl : stepLines (stateAt 5 0xD3601041) = some (["L5: LSL X1, X2, #4"], 6) := by decide
theorem test_line_lsr : stepLines (stateAt 5 0xD340FC63) = some (["L5: LSR X3, X3, #63"], 6) := by decide
theorem test_line_ldur : stepLines (stateAt 5 0xF8408380) = some (["L5: LDUR X0, [SP, #8]"], 6) := by decide
theorem test_line_stur : stepLines (stateAt 5 0xF81F83A5) = some (["L5: STUR X5, [FP, #-8]"], 6) := by decide
theorem test_line_prnl : stepLines (stateAt 5 0xFF800000) = some (["L5: PRNL"], 6) := by decide
theorem test_line_dump : stepLines (stateAt 5 0xFFC00000) = some (["L5: DUMP"], 6) := by decide
theorem test_line_halt : stepLines (stateAt 5 0xFFE00000) = some (["L5: HALT"], 6) := by decide
theorem test_line_addi : stepLines (stateAt 5 0x91000421) = some (["L5: ADDI X1, X1, #1"], 6) := by decide
theorem test_line_andi : stepLines (stateAt 5 0x9203FC62) = some (["L5: ANDI X2, X3, #255"], 6) := by decide
theorem test_line_eori : stepLines (stateAt 5 0xD23FFCA4) = some (["L5: EORI X4, X5, #-1"], 6) := by decide
theorem test_line_orri : stepLines (stateAt 5 0xB21FFCE6) = some (["L5: ORRI X6, X7, #2047"], 6) := by decide
theorem test_line_subi : stepLines (stateAt 5 0xD100439C) = some (["L5: SUBI SP, SP, #16"], 6) := by decide
theorem test_line_subis : stepLines (stateAt 5 0xF120013F) = some (["L5: SUBIS XZR, X9, #-2048"], 6) := by decide
theorem test_line_cbz : stepLines (stateAt 5 0xB4000069) = some (["L5: CBZ L8"], 6) := by decide
theorem test_line_cbnz : stepLines (stateAt 5 0xB5FFFFC1) = some (["L5: CBNZ L3"], 6) := by decide
theorem test_line_bCond : stepLines (stateAt 5 0x54FFFFE1) = some (["L5: B.NE L4"], 6) := by decide
theorem test_line_b : stepLines (stateAt 5 0x14000001) = some (["L5: B L6"], 6) := by decide
theorem test_line_bl : stepLines (stateAt 5 0x97FFFFFD) = some (["L5: BL L2"], 6) := by decide

/-! ## Vectors of 95_test_vectors.md -/

/-- L1-1, with the correction of 90_conflicts.md C1. -/
theorem test_vector_add_of_source : stepLines (stateAt 1 0x8B010000) = some (["L1: ADD X0, X0, X1"], 2) := by decide
/-- L1-4: the reserved names and their neighbours. -/
theorem test_vector_register_names :
    [0, 1, 9, 10, 27, 28, 29, 30, 31].map regname = ["X0", "X1", "X9", "X10", "X27", "SP", "FP", "LR", "XZR"] := by decide
/-- L1-5: the sign boundaries of the 9-, 12-, 19- and 26-bit fields. -/
theorem test_vector_sign_boundaries :
    [0xF84FF000, 0xF8500000, 0x91200000, 0xB47FFFE0, 0xB4800000, 0x15FFFFFF, 0x16000000].map (fun w => stepLines (stateAt 1 w)) =
      [some (["L1: LDUR X0, [X0, #255]"], 2), some (["L1: LDUR X0, [X0, #-256]"], 2), some (["L1: ADDI X0, X0, #-2048"], 2),
       some (["L1: CBZ L262144"], 2), some (["L1: CBZ L-262143"], 2), some (["L1: B L33554432"], 2),
       some (["L1: B L-33554431"], 2)] := by decide
/-- 2.3: the reserved condition codes, and bit 4 unread. -/
theorem test_vector_reserved_conditions :
    [0x5400004E, 0x5400004F, 0x54000050].map (fun w => stepLines (stateAt 1 w)) =
      [some (["L1: B. L3"], 2), some (["L1: B. L3"], 2), some (["L1: B.EQ L3"], 2)] := by decide
/-- 2.1: unread bits set. -/
theorem test_vector_unread_bits :
    [0x8B00FC00, 0xD37F1041, 0xF8408C41, 0xFF9FFFFF, 0xFFFFFFFF].map (fun w => stepLines (stateAt 1 w)) =
      [some (["L1: ADD X0, X0, X0"], 2), some (["L1: LSL X1, X2, #4"], 2), some (["L1: LDUR X1, [X2, #8]"], 2),
       some (["L1: PRNL"], 2), some (["L1: HALT"], 2)] := by decide
/-- 2.5: the illegal neighbours leave the label counter, and a word whose 11-bit field equals B's 6-bit value is no B. -/
theorem test_vector_illegal_words :
    [0x00000000, 0x8B200000, 0x91800000, 0xB6000000, 0x18000000, 0xFC000000, 0x7FFFFFFF, 0x00A00000].all (fun w =>
      decide (stepLines (stateAt 4 w) = some (["Opcode not found --> Error with program"], 4))) = true := by decide
/-- L1-7: with the added entry the same word is TESTR, and its neighbour still hits B. -/
theorem test_vector_probe_order :
    (match decodeTransaction (device.opcodeRom ++ [⟨.w11, 0b00010100000, "TESTR"⟩]) device.condRom 1 0x14000001 with
     | .ok _ line _ => line
     | .fail _ _ line _ => line) = "L1: TESTR" ∧
    (match decodeTransaction (device.opcodeRom ++ [⟨.w11, 0b00010100000, "TESTR"⟩]) device.condRom 1 0x14200001 with
     | .ok _ line _ => line
     | .fail _ _ line _ => line) = "L1: B L2097154" := by decide
/-- 2.7: the reader's framing. -/
theorem test_vector_framing :
    framedWords [0x8B, 0x01, 0x00, 0x00] = [0x8B010000] ∧ framedWords [0x14, 0, 0, 1, 0xFF] = [0x14000001] ∧
    framedWords [0xFF, 0xE0, 0x00] = [] ∧ runEvents [0xFF, 0xE0, 0x00] = [.reset, .endOfInput] := by decide
/-- R223: an I/O error after 4 bytes ends the events without an `End`. -/
theorem test_cut_off : cutOffEvents [0x14, 0, 0, 1, 0xFF, 0xE0, 0, 0] 4 = [.reset, .word 0x14000001] := by decide
/-- The record of R107 for a branch and for a word whose shape reads no operand. -/
theorem test_record_target :
    recordsOf (match step (stateAt 5 0x97FFFFFD) with | .next t => t.output | .fault _ => [] | .refused _ => []) =
      [{ mnem := "BL", fmt := .b, shape := .unconditionalBranch, label := 5, rd := 29, rn := 31, rm := 31, rt := 29, shamt := 63, cond := 13,
         dtoff := -1, imm := -1, cboff := -1, boff := -3, target := some 2, mnemtext := "BL", operandtext := " L2" }] := by decide
/-- The fixed names the host uses: the table word's decoder, and the first step after reset. -/
theorem test_table_word : decodeTableWord 32 0x8B000000 = some (.add 0 0 0 0) ∧ decodeTableWord 32 0x00A00000 = none := by decide
theorem test_fetch_word : stepLines (State.reset.withFetchWord 32 0x14000001) = some (["L1: B L2"], 2) := by decide
/-- Bytes that decode to nothing are rejected by name (R43, R75). -/
theorem test_decode_bytes_rejects :
    decodeBytes [0xFF, 0xE0, 0x00] = .error .partialWord ∧ decodeBytes [0, 0, 0, 0] = .error (.illegalWord 0) ∧
    decodeBytes [0xFF, 0xE0, 0, 0, 7] = .ok (.halt 0, [7]) := by decide
/-- A finite counter of 2 bits holds labels 1 to 3 (92_eei_decisions.md D8). -/
theorem test_finite_counter :
    stepWith { device with labelW := some 2 } (stateAt 3 0xFFE00000) = .refused .labelOverflow := by rfl

/-! ## Witnesses: the hypotheses of each statement are met -/

theorem witness_ResetEventRestartsLabels : ∃ (s : State) (rest : List Event), s.lc = 9 ∧ s.phase = .done ∧ s.input = Event.reset :: rest :=
  ⟨{ lc := 9, phase := .done, input := [.reset], output := [] }, [], rfl, rfl, rfl⟩
theorem witness_EndOfInputMovesToDone : ∃ (s : State) (rest : List Event), s.phase = .running ∧ s.input = .endOfInput :: rest :=
  ⟨{ lc := 3, phase := .running, input := [.endOfInput], output := [] }, [], rfl, rfl⟩
theorem witness_DoneTakesOnlyReset : (∃ (s : State) (ev : Event), s.phase = .done ∧ s.input = [ev] ∧ ev ≠ .reset) ∧
    ∃ (s : State) (ev : Event), s.phase = .done ∧ s.input = [ev] ∧ ev = .reset :=
  ⟨⟨{ lc := 1, phase := .done, input := [.word 0x8B000000], output := [] }, _, rfl, rfl, by decide⟩,
   ⟨{ lc := 1, phase := .done, input := [.reset], output := [] }, _, rfl, rfl, rfl⟩⟩
theorem witness_NoEventNoStep : State.reset.input = [] := rfl
theorem witness_StepRunsDecodedInstruction : (stateAt 5 0x8B030041).phase = .running ∧ (stateAt 5 0x8B030041).input = .word 0x8B030041 :: [] ∧
    decodeWord 0x8B030041 = some (.add 1 2 3 0) := by decide
theorem witness_PresentedTableWordIsRun : decodeTableWord 32 0xFFFFFFFF = some (.halt 0x1FFFFF) ∧ decodeTableWord 32 0 = none := by decide
theorem witness_DecodeErrorExactlyOnIllegalWords : (stateAt 4 0x8B200000).input = .word 0x8B200000 :: [] ∧
    classify device.opcodeRom 0x8B200000 = none ∧ classify device.opcodeRom 0x8B1FFFFF ≠ none := by decide
theorem witness_DiagnosticIsOneFixedLine : decodeTransaction device.opcodeRom device.condRom 4 0 = .fail .decodeError 0 diagnostic 4 := by decide
theorem witness_LabelAdvancesExactlyOnDecode : (stateAt 1 0xFFFFFFFF).phase = .running ∧ classify device.opcodeRom 0xFFFFFFFF ≠ none ∧
    classify device.opcodeRom 0x7FFFFFFF = none := by decide
theorem witness_ConditionalBranchInstructionsRender : (-262144 : Int) ≤ -262144 ∧ (262143 : Int) ≤ 262143 ∧
    (Instr.cbz (-262144) 0).wf = true ∧ (Instr.bCond 0xF 262143 1).wf = true := by decide
theorem witness_UnconditionalBranchInstructionsRender : (-33554432 : Int) ≤ -33554432 ∧ (33554431 : Int) ≤ 33554431 ∧
    (Instr.b (-33554432)).wf = true ∧ (Instr.bl 33554431).wf = true := by decide
theorem witness_HaltDoesNotEndTheRun :
    ∃ (s : State) (w w' : Word) (rest : List Event), s.phase = .running ∧ s.input = .word w :: .word w' :: rest ∧ w.extractLsb' 21 11 = 0x7FF#11 :=
  ⟨{ lc := 1, phase := .running, input := [.word 0xFFE00000, .word 0xFFE00000], output := [] }, _, _, [], rfl, rfl, by decide⟩
theorem witness_DecodingTheEncodingGivesTheInstruction : (Instr.stur 31 28 (-256) 3).wf = true ∧ (Instr.lsr 0 31 63 31).wf = true ∧
    (Instr.orri 31 0 (-2048)).wf = true := by decide
theorem witness_EncodingTheDecodedGivesTheWord : decodeWord 0x54FFFFFF = some (.bCond 15 (-1) 1) := by decide
theorem witness_RegisterFormatWordsDecode : (BitVec.extractLsb' 21 11 0x8B1FFFFF#32) = 0b10001011000#11 ∧
    (BitVec.extractLsb' 21 11 0x8A1FFFFF#32) = 0b10001010000#11 ∧ (BitVec.extractLsb' 21 11 0xCA000000#32) = 0b11001010000#11 ∧
    (BitVec.extractLsb' 21 11 0xAA000000#32) = 0b10101010000#11 ∧ (BitVec.extractLsb' 21 11 0xCB000000#32) = 0b11001011000#11 ∧
    (BitVec.extractLsb' 21 11 0xEB000000#32) = 0b11101011000#11 ∧ (BitVec.extractLsb' 21 11 0x9B000000#32) = 0b10011011000#11 ∧
    (BitVec.extractLsb' 21 11 0xD6000000#32) = 0b11010110000#11 ∧ (BitVec.extractLsb' 21 11 0xD3600000#32) = 0b11010011011#11 ∧
    (BitVec.extractLsb' 21 11 0xD35FFFFF#32) = 0b11010011010#11 ∧ (BitVec.extractLsb' 21 11 0xFFA00000#32) = 0b11111111101#11 ∧
    (BitVec.extractLsb' 21 11 0xF8500000#32) = 0b11111000010#11 ∧ (BitVec.extractLsb' 21 11 0xF80FF000#32) = 0b11111000000#11 ∧
    (BitVec.extractLsb' 21 11 0xFF800000#32) = 0b11111111100#11 ∧ (BitVec.extractLsb' 21 11 0xFFC00000#32) = 0b11111111110#11 ∧
    (BitVec.extractLsb' 21 11 0xFFFFFFFF#32) = 0b11111111111#11 := by decide
theorem witness_ImmediateFormatWordsDecode : (BitVec.extractLsb' 22 10 0x911FFC00#32) = 0b1001000100#10 ∧
    (BitVec.extractLsb' 22 10 0x92200000#32) = 0b1001001000#10 ∧ (BitVec.extractLsb' 22 10 0xD23FFFFF#32) = 0b1101001000#10 ∧
    (BitVec.extractLsb' 22 10 0xB2000000#32) = 0b1011001000#10 ∧ (BitVec.extractLsb' 22 10 0xD1000000#32) = 0b1101000100#10 ∧
    (BitVec.extractLsb' 22 10 0xF13FFFFF#32) = 0b1111000100#10 := by decide
theorem witness_BranchFormatWordsDecode : (BitVec.extractLsb' 24 8 0xB47FFFE0#32) = 0b10110100#8 ∧
    (BitVec.extractLsb' 24 8 0xB5800000#32) = 0b10110101#8 ∧ (BitVec.extractLsb' 24 8 0x54FFFFFF#32) = 0b01010100#8 ∧
    (BitVec.extractLsb' 26 6 0x15FFFFFF#32) = 0b000101#6 ∧ (BitVec.extractLsb' 26 6 0x96000000#32) = 0b100101#6 := by decide
theorem witness_DefaultRomIsPrefixFree : ∃ a ∈ device.opcodeRom, ∃ b ∈ device.opcodeRom, widthBits b.width < widthBits a.width :=
  ⟨⟨.w11, 0b10001011000, "ADD"⟩, by decide, ⟨.w6, 0b000101, "B"⟩, by decide, by decide⟩
theorem witness_FirstHitInProbeOrderWins :
    romLookup device.opcodeRom .w11 (BitVec.extractLsb' 21 11 0xFFFFFFFF#32).toNat = some "HALT" ∧
    (romLookup device.opcodeRom .w11 (BitVec.extractLsb' 21 11 0x913FFFFF#32).toNat = none ∧
      romLookup device.opcodeRom .w10 (BitVec.extractLsb' 22 10 0x913FFFFF#32).toNat = some "ADDI") ∧
    (romLookup device.opcodeRom .w11 (BitVec.extractLsb' 21 11 0xB4000000#32).toNat = none ∧
      romLookup device.opcodeRom .w10 (BitVec.extractLsb' 22 10 0xB4000000#32).toNat = none ∧
      romLookup device.opcodeRom .w8 (BitVec.extractLsb' 24 8 0xB4000000#32).toNat = some "CBZ") ∧
    (romLookup device.opcodeRom .w11 (BitVec.extractLsb' 21 11 0x97FFFFFF#32).toNat = none ∧
      romLookup device.opcodeRom .w10 (BitVec.extractLsb' 22 10 0x97FFFFFF#32).toNat = none ∧
      romLookup device.opcodeRom .w8 (BitVec.extractLsb' 24 8 0x97FFFFFF#32).toNat = none ∧
      romLookup device.opcodeRom .w6 (BitVec.extractLsb' 26 6 0x97FFFFFF#32).toNat = some "BL") ∧
    (romLookup device.opcodeRom .w11 (BitVec.extractLsb' 21 11 0#32).toNat = none ∧
      romLookup device.opcodeRom .w10 (BitVec.extractLsb' 22 10 0#32).toNat = none ∧
      romLookup device.opcodeRom .w8 (BitVec.extractLsb' 24 8 0#32).toNat = none ∧
      romLookup device.opcodeRom .w6 (BitVec.extractLsb' 26 6 0#32).toNat = none) := by decide
theorem witness_AddedWideEntryWinsOverB : (BitVec.extractLsb' 21 11 0x141FFFFF#32) = 0b00010100000#11 ∧
    (BitVec.extractLsb' 21 11 0x14200000#32) ≠ 0b00010100000#11 := by decide
theorem witness_RegisterNames : (27#5).toNat < 28 ∧ ¬ (28#5).toNat < 28 ∧ (31#5 : RegCode) ≠ 30#5 := by decide
theorem witness_DecimalNumeralsAreExact : (dec (0 : Nat)).toList.head? = some '0' ∧ 0 < 1 := by decide
theorem witness_SignExtensionIsTheThresholdRule : (255#9).toNat < 2 ^ (9 - 1) ∧ 2 ^ (9 - 1) ≤ (256#9).toNat ∧ 2 ^ (1 - 1) ≤ (1#1).toNat := by decide
theorem witness_UnreadBitsDoNotChangeTheLine : classify device.opcodeRom 0x54000090 = some ("B.", .cb) ∧
    classify device.opcodeRom 0x54000080 = some ("B.", .cb) ∧ (0x54000090 : Word) ≠ 0x54000080 ∧
    (0x54000090 : Word) &&& readMask (shapeOf "B." .cb) "B." = 0x54000080 &&& readMask (shapeOf "B." .cb) "B." := by decide
theorem witness_OnlyBranchTextReadsTheLabel : Shape.noOperands ≠ .conditionalBranch ∧ Shape.noOperands ≠ .unconditionalBranch := by decide
theorem witness_DecodedWordEmitsItsRecord : (stateAt 5 0x54FFFFE1).phase = .running ∧ (stateAt 5 0x54FFFFE1).input = .word 0x54FFFFE1 :: [] ∧
    classify device.opcodeRom 0x54FFFFE1 = some ("B.", .cb) := by decide
theorem witness_StepConsumesOneEventAndAppends : (∃ t, step (stateAt 5 0) = .next t) ∧
    (∃ t, step { State.reset with input := [.endOfInput] } = .next t) ∧ ∃ t, step { State.reset with input := [.reset] } = .next t :=
  ⟨⟨_, rfl⟩, ⟨_, rfl⟩, ⟨_, rfl⟩⟩
/-- A state no run from reset reaches (an error record for a word presented in no order) that meets the invariant, and its step. -/
theorem witness_StepKeepsRunInvariant :
    ∃ s t : State, s.ok = true ∧ s.lc = 7 ∧ s.output ≠ [] ∧ step s = .next t :=
  ⟨{ lc := 7, phase := .running, input := [.word 0xFFE00000], output := [.error .decodeError 0, .line diagnostic] }, _, by decide, rfl,
    by decide, rfl⟩
theorem witness_StreamOfWordsRunsToTheRecursion : ∃ (ws : List Word) (rest : List Event) (s : State), ws.length = 2 ∧ s.phase = .running ∧
    s.input = ws.map .word ++ rest :=
  ⟨[0, 0xFFE00000], [.endOfInput], { lc := 4, phase := .running, input := [.word 0, .word 0xFFE00000, .endOfInput], output := [] }, rfl, rfl, rfl⟩
theorem witness_InstructionLinesAreLabelledInOrder : ∃ (ws : List Word) (rest : List Event) (s : State),
    decodableCount device.opcodeRom ws = 2 ∧ ws.length = 3 ∧ s.input = .reset :: (ws.map .word ++ rest) :=
  ⟨[0x91000421, 0, 0xFFE00000], [], { lc := 4, phase := .done, input := [.reset, .word 0x91000421, .word 0, .word 0xFFE00000], output := [] },
    by decide, rfl, rfl⟩
theorem witness_FiniteCounterRefusesExactlyOnOverflow :
    ({ device with labelW := some 2 } : Config).labelW = some 2 ∧ 2 ^ 2 ≤ (stateAt 3 0xFFE00000).lc + 1 ∧ (stateAt 2 0xFFE00000).lc + 1 < 2 ^ 2 ∧
    classify device.opcodeRom 0xFFE00000 ≠ none ∧ classify device.opcodeRom 0 = none := by decide
theorem witness_FiniteCounterAgreesWithinItsLimit : 1 ≤ 2 ∧ decodableCount device.opcodeRom [0xFFE00000, 0, 0xFFE00000] ≤ 2 ^ 2 - 2 ∧
    decodableCount device.opcodeRom [0xFFE00000, 0, 0xFFE00000] = 2 := by decide
theorem witness_WordsAreBigEndian : ([0x8B, 0x01, 0x00, 0x00] : List Byte)[4 * 0]? = some 0x8B ∧
    ([0x8B, 0x01, 0x00, 0x00] : List Byte)[4 * 0 + 3]? = some 0x00 := by decide
theorem witness_EveryFileIsDisassembledToItsEnd : State.reset.input = [] := rfl

end Sys2Proof.Tests
end

namespace Sys2Proof

/-! ## Sign extension (R9): one equation per side of the threshold -/

theorem sext_of_toNat_lt {n : Nat} {v : BitVec n} (h : v.toNat < 2 ^ (n - 1)) : sext v = (v.toNat : Int) :=
  if_pos h

theorem sext_of_le_toNat {n : Nat} {v : BitVec n} (h : 2 ^ (n - 1) ≤ v.toNat) : sext v = (v.toNat : Int) - 2 ^ n :=
  if_neg (Nat.not_lt.mpr h)

/-- Settles O36: the two sides of the threshold in the definition of `sext`. The threshold `2 ^ (n - 1)` is the model's own at
every width, so width 0, where `n - 1 = 0` and the only value is 0, falls under the first clause and needs no case. -/
theorem signExtensionIsTheThresholdRule : Obligations.SignExtensionIsTheThresholdRule :=
  fun _ _ => ⟨sext_of_toNat_lt, sext_of_le_toNat⟩

end Sys2Proof

namespace Sys2Proof.Machine

/-! ## The run invariant (R20, R46, R104, R220): every step appends one whole, consistent transaction or nothing -/

theorem State.ok_iff {s : State} : s.ok = true ↔ 1 ≤ s.lc ∧ outputOk s.output = true := by
  simp [State.ok]

/-- Whole transactions end where the next one begins, so what follows them is judged on its own. -/
theorem outputOk_append_of_ok {items : List Output} (later : List Output) (h : outputOk items = true) :
    outputOk (items ++ later) = outputOk later := by
  induction items using outputOk.induct with
  | case1 => rfl
  | case2 d line rest ih =>
    simp only [outputOk, Bool.and_eq_true] at h
    obtain ⟨⟨hrecord, hline⟩, hrest⟩ := h
    simp [outputOk, hrecord, hline, ih hrest]
  | case3 k w line rest ih =>
    simp only [outputOk, Bool.and_eq_true] at h
    obtain ⟨⟨⟨hkind, hillegal⟩, hline⟩, hrest⟩ := h
    simp [outputOk, hkind, hillegal, hline, ih hrest]
  | case4 items hnil hdecoded herror =>
    simp [outputOk] at h

/-- The record's target is the one its own label and offsets give (R106, R107), so a row's record at a positive label is
consistent. -/
theorem recordOk_recordOf {m : String} {fmt : Format} {lc : Nat} (hrow : isRow m fmt = true) (hlc : 1 ≤ lc) (w : Word)
    (mt ops : String) : recordOk (recordOf m fmt (shapeOf m fmt) w lc mt ops) = true := by
  unfold isRow at hrow
  cases fmt <;> simp [recordOk, hrow, hlc, targetOf, targetLabel]

theorem outputOk_decodedOutputs {d : DecodedRecord} (h : recordOk d = true) : outputOk (decodedOutputs d) = true := by
  simp [decodedOutputs, outputOk, h]

theorem outputOk_errorOutputs {w : Word} (h : decodeWord w = none) : outputOk (errorOutputs w) = true := by
  simp [errorOutputs, outputOk, h]

theorem State.ok_emit {s : State} {items : List Output} (h : s.ok = true) (hitems : outputOk items = true) :
    (s.emit items).ok = true := by
  obtain ⟨hlc, hout⟩ := State.ok_iff.mp h
  exact State.ok_iff.mpr ⟨hlc, by rw [emit_output, outputOk_append_of_ok items hout, hitems]⟩

theorem State.ok_setLc {s : State} {v : Nat} (h : s.ok = true) (hv : 1 ≤ v) : (s.setLc v).ok = true :=
  State.ok_iff.mpr ⟨hv, (State.ok_iff.mp h).2⟩

/-- The invariant reads neither the events presented nor the phase. -/
@[simp] theorem State.ok_setInput (s : State) (evs : List Event) : (s.setInput evs).ok = s.ok := rfl

@[inherit_doc State.ok_setInput, simp]
theorem State.ok_setPhase (s : State) (p : Phase) : (s.setPhase p).ok = s.ok := rfl

/-- An instruction's meaning keeps the invariant: its record is of a row of the ROM, at the own, positive label. -/
theorem exec_keeps_ok {i : Instr} {s t : State} (h : s.ok = true) (hexec : exec i s = .next t) : t.ok = true := by
  obtain ⟨m, fmt, mt, ops, hrow, heq⟩ := exec_cases i s
  cases heq.symm.trans hexec
  have hrecord := recordOk_recordOf hrow (State.ok_iff.mp h).1 (encode i) mt ops
  exact State.ok_setLc (State.ok_emit h (outputOk_decodedOutputs hrecord)) (by omega)

/-- Settles O44: by what the step's event was. -/
theorem stepKeepsRunInvariant : Obligations.StepKeepsRunInvariant := by
  intro s t h hstep
  obtain ⟨ev, rest, -, hcase⟩ := step_cases hstep
  have hinput : (s.setInput rest).ok = true := h
  obtain ⟨-, rfl⟩ | ⟨-, -, rfl⟩ | ⟨w, i, -, -, -, hexec⟩ | ⟨w, -, -, hillegal, rfl⟩ := hcase
  · exact (State.ok_setPhase _ _).trans (State.ok_setLc hinput le_rfl)
  · exact hinput
  · exact exec_keeps_ok hinput hexec
  · exact State.ok_emit hinput (outputOk_errorOutputs hillegal)

/-! ## Earlier output is never read (R26, R46): each operation commutes with putting other output before the state's -/

/-- The state with other output put out before its own. -/
def State.precededBy (before : List Output) (s : State) : State := { s with output := before ++ s.output }

/-- Changes the state a step answers, and leaves its stops. -/
def mapNext (f : State → State) : Host.Outcome State Fault Refusal → Host.Outcome State Fault Refusal
  | .next t => .next (f t)
  | .fault r => .fault r
  | .refused r => .refused r

section Preceded

variable (before : List Output) (s : State)

theorem emit_precededBy (items : List Output) :
    (s.precededBy before).emit items = (s.emit items).precededBy before :=
  State.ext_fields rfl rfl rfl (List.append_assoc before s.output items)

theorem commitDecoded_precededBy (c : Config) (d : DecodedRecord) :
    commitDecoded c d (s.precededBy before) = mapNext (.precededBy before) (commitDecoded c d s) := by
  have hlc : (s.precededBy before).lc = s.lc := rfl
  rw [commitDecoded_eq, commitDecoded_eq, hlc, emit_precededBy]
  split
  · rfl
  · rfl

theorem takeDecodeError_precededBy (w : Word) :
    takeDecodeError w (s.precededBy before) = mapNext (.precededBy before) (takeDecodeError w s) := by
  rw [takeDecodeError_eq, emit_precededBy]; rfl

/-- Every meaning is one commit of a record that reads nothing of the state but the label counter. -/
theorem exec_precededBy (i : Instr) :
    exec i (s.precededBy before) = mapNext (.precededBy before) (exec i s) := by
  cases i <;> exact commitDecoded_precededBy before s device _

theorem runWord_precededBy (w : Word) :
    runWord w (s.precededBy before) = mapNext (.precededBy before) (runWord w s) := by
  unfold runWord
  cases decodeWord w with
  | none => exact takeDecodeError_precededBy before s w
  | some i => exact exec_precededBy before s i

theorem runEvent_precededBy (ev : Event) :
    runEvent ev (s.precededBy before) = mapNext (.precededBy before) (runEvent ev s) := by
  obtain ⟨lc, phase, input, output⟩ := s
  cases ev with
  | word w =>
    cases phase with
    | running => exact runWord_precededBy before _ w
    | done => rfl
  | endOfInput => cases phase <;> rfl
  | reset => cases phase <;> rfl

theorem step_precededBy : step (s.precededBy before) = mapNext (.precededBy before) (step s) := by
  obtain ⟨lc, phase, input, output⟩ := s
  cases input with
  | nil => rfl
  | cons ev rest => exact runEvent_precededBy before ⟨lc, phase, rest, output⟩ ev

end Preceded

/-- Settles O43: the statement is `step_precededBy` with its two definitions written out. -/
theorem earlierOutputIsNeverRead : Obligations.EarlierOutputIsNeverRead := by
  intro s before
  refine (step_precededBy before s).trans ?_
  cases step s <;> rfl

end Sys2Proof.Machine

namespace Sys2Proof

/-! ## Words and bytes (R42): big-endian order, and the decoder through it -/

theorem wordOfBytes_toNat (b0 b1 b2 b3 : Byte) :
    (wordOfBytes b0 b1 b2 b3).toNat = b0.toNat * 2 ^ 24 + b1.toNat * 2 ^ 16 + b2.toNat * 2 ^ 8 + b3.toNat := by
  simp only [wordOfBytes, BitVec.toNat_cast, append_toNat]; omega

/-- A word is the four bytes the file holds for it. -/
theorem wordOfBytes_slices (w : Word) :
    wordOfBytes (slice w 24 8) (slice w 16 8) (slice w 8 8) (slice w 0 8) = w := by
  apply BitVec.eq_of_toNat_eq
  simp only [wordOfBytes_toNat, slice_toNat]
  omega

/-- The host's reduction of a table word to 32 bits is the one `BitVec.ofNat` makes. -/
theorem ofNat_mod_two_pow (w : Nat) : BitVec.ofNat 32 (w % 2 ^ 32) = BitVec.ofNat 32 w :=
  BitVec.eq_of_toNat_eq (by simp)

/-- Taking a table word through its bytes decodes the word itself. -/
theorem decodeTableWord_eq_decodeWord (w : Nat) : decodeTableWord 32 w = decodeWord (BitVec.ofNat 32 w) := by
  simp only [decodeTableWord, ofNat_mod_two_pow, bytesOfWord, decodeBytes, wordOfBytes_slices]
  cases decodeWord (BitVec.ofNat 32 w) <;> rfl

end Sys2Proof

namespace Sys2Proof.Machine

/-! ## What the step answers for each event (R108, R109, R240) -/

section StepOnEvent

variable {s : State} {w : Word} {rest : List Event}

theorem step_of_decoded {i : Instr} (hp : s.phase = .running) (hin : s.input = .word w :: rest)
    (hd : decodeWord w = some i) : step s = exec i (s.setInput rest) := by
  simp only [step, runNext, hin, runEvent, setInput_phase, hp, runWord, hd]

theorem step_of_illegal (hp : s.phase = .running) (hin : s.input = .word w :: rest) (hd : decodeWord w = none) :
    step s = .next ((s.setInput rest).emit (errorOutputs w)) := by
  simp only [step, runNext, hin, runEvent, setInput_phase, hp, runWord, hd, takeDecodeError_eq]

theorem step_of_endOfInput (hp : s.phase = .running) (hin : s.input = .endOfInput :: rest) :
    step s = .next ((s.setInput rest).setPhase .done) := by
  simp only [step, runNext, hin, runEvent, setInput_phase, hp, endRun_eq]

theorem step_of_reset (hin : s.input = .reset :: rest) :
    step s = .next (((s.setInput rest).setLc 1).setPhase .running) := by
  simp only [step, runNext, hin, runEvent, resetBlock_eq]

end StepOnEvent

/-- Settles O7: the presented word is the table word itself, and the step decodes it. -/
theorem presentedTableWordIsRun : Obligations.PresentedTableWordIsRun := by
  intro s w
  have hin : (s.withFetchWord 32 w).input = .word (BitVec.ofNat 32 w) :: s.input := by
    rw [← ofNat_mod_two_pow]; rfl
  rw [decodeTableWord_eq_decodeWord]
  exact ⟨fun _ hd => step_of_decoded rfl hin hd, fun hd => step_of_illegal rfl hin hd⟩

/-! ## One event consumed, one line for a word (R41, R46, R100) -/

@[simp] theorem linesOf_decodedOutputs (d : DecodedRecord) : linesOf (decodedOutputs d) = [lineOf d] := rfl
@[simp] theorem linesOf_errorOutputs (w : Word) : linesOf (errorOutputs w) = [diagnostic] := rfl

/-- Settles O42: by what the step's event was. -/
theorem stepConsumesOneEventAndAppends : Obligations.StepConsumesOneEventAndAppends := by
  intro s t hstep
  obtain ⟨ev, rest, hin, hcase⟩ := step_cases hstep
  obtain ⟨rfl, rfl⟩ | ⟨-, rfl, rfl⟩ | ⟨w, i, -, rfl, -, hexec⟩ | ⟨w, -, rfl, -, rfl⟩ := hcase
  · exact ⟨_, [], hin, by simp, by simp, by simp⟩
  · exact ⟨_, [], hin, by simp, by simp, by simp⟩
  · obtain ⟨m, fmt, mt, ops, -, heq⟩ := exec_cases i (s.setInput rest)
    cases heq.symm.trans hexec
    exact ⟨_, decodedOutputs _, hin, rfl, fun _ _ => ⟨rfl, rfl⟩, by simp⟩
  · exact ⟨_, errorOutputs w, hin, rfl, fun _ _ => ⟨rfl, rfl⟩, by simp⟩

/-! ## The reader's framing (R42, R43) -/

theorem framedWords_of_length_lt {file : List Byte} (h : file.length < 4) : framedWords file = [] := by
  match file, h with
  | [], _ | [_], _ | [_, _], _ | [_, _, _], _ => rfl

/-- A file without a whole word at its start is shorter than one. -/
theorem length_lt_of_no_word {file : List Byte}
    (h : ∀ (b0 b1 b2 b3 : Byte) (rest : List Byte), file = b0 :: b1 :: b2 :: b3 :: rest → False) : file.length < 4 := by
  match file, h with
  | [], _ | [_], _ | [_, _], _ | [_, _, _], _ => simp
  | b0 :: b1 :: b2 :: b3 :: rest, h => exact (h b0 b1 b2 b3 rest rfl).elim

theorem framedWords_length (file : List Byte) : (framedWords file).length = file.length / 4 := by
  induction file using framedWords.induct with
  | case1 b0 b1 b2 b3 rest ih => simp only [framedWords, List.length_cons, ih]; omega
  | case2 file hshort =>
    have hlt := length_lt_of_no_word hshort
    rw [framedWords_of_length_lt hlt, Nat.div_eq_of_lt hlt, List.length_nil]

theorem framedWords_take_whole (file : List Byte) :
    framedWords (file.take (4 * (file.length / 4))) = framedWords file := by
  induction file using framedWords.induct with
  | case1 b0 b1 b2 b3 rest ih =>
    have hlen : 4 * ((b0 :: b1 :: b2 :: b3 :: rest).length / 4) = 4 * (rest.length / 4) + 4 := by
      simp only [List.length_cons]; omega
    rw [hlen]
    simp only [List.take_succ_cons, framedWords, ih]
  | case2 file hshort =>
    have hlt := length_lt_of_no_word hshort
    rw [framedWords_of_length_lt hlt, framedWords_of_length_lt (List.length_take_le' _ _ |>.trans_lt hlt)]

theorem framedWords_getElem? {file : List Byte} {k : Nat} {b0 b1 b2 b3 : Byte} (h0 : file[4 * k]? = some b0)
    (h1 : file[4 * k + 1]? = some b1) (h2 : file[4 * k + 2]? = some b2) (h3 : file[4 * k + 3]? = some b3) :
    (framedWords file)[k]? = some (wordOfBytes b0 b1 b2 b3) := by
  induction file using framedWords.induct generalizing k with
  | case1 c0 c1 c2 c3 rest ih =>
    cases k with
    | zero => cases h0; cases h1; cases h2; cases h3; rfl
    | succ k =>
      simp only [Nat.mul_succ, Nat.add_right_comm _ 4, List.getElem?_cons_succ] at h0 h1 h2 h3
      simpa [framedWords] using ih h0 h1 h2 h3
  | case2 file hshort =>
    have hlt := length_lt_of_no_word hshort
    obtain ⟨hge, -⟩ := List.getElem?_eq_some_iff.mp h3
    omega

/-- Settles O51: both halves by induction along the framing. -/
theorem fileSuppliesOneWordPerFourBytes : Obligations.FileSuppliesOneWordPerFourBytes :=
  fun file => ⟨framedWords_length file, (framedWords_take_whole file).symm⟩

/-- Settles O52: word `k` is framed from its four bytes, and their order gives its value. -/
theorem wordsAreBigEndian : Obligations.WordsAreBigEndian :=
  fun _ _ b0 b1 b2 b3 h0 h1 h2 h3 => ⟨_, framedWords_getElem? h0 h1 h2 h3, wordOfBytes_toNat b0 b1 b2 b3⟩

/-! ## A run over words (R110, R111): what the words of a stream put out, one transaction after the other -/

/-- The outputs of the words `ws`, presented to a running device whose label counter is `lc`: for each word that decodes a record
at the own label and its line, and the counter is one more (R105); for every other word the error and the diagnostic (R220). -/
inductive Transcript : Nat → List Word → List Output → Prop where
  | nil (lc : Nat) : Transcript lc [] []
  | decoded {lc : Nat} {w : Word} {ws : List Word} {items : List Output} (d : DecodedRecord)
      (hit : (classify device.opcodeRom w).isSome = true) (label : d.label = lc) (later : Transcript (lc + 1) ws items) :
      Transcript lc (w :: ws) (decodedOutputs d ++ items)
  | illegal {lc : Nat} {w : Word} {ws : List Word} {items : List Output}
      (miss : classify device.opcodeRom w = none) (later : Transcript lc ws items) :
      Transcript lc (w :: ws) (errorOutputs w ++ items)

section DecodableCount

variable {rom : OpcodeRom} {w : Word} (ws : List Word)

theorem decodableCount_cons_of_hit (h : (classify rom w).isSome = true) :
    decodableCount rom (w :: ws) = decodableCount rom ws + 1 :=
  List.countP_cons_of_pos h

theorem decodableCount_cons_of_miss (h : classify rom w = none) :
    decodableCount rom (w :: ws) = decodableCount rom ws :=
  List.countP_cons_of_neg (by simp [h])

end DecodableCount

theorem linesOf_append (items later : List Output) : linesOf (items ++ later) = linesOf items ++ linesOf later :=
  List.filterMap_append

theorem labelsOf_append (items later : List Output) : labelsOf (items ++ later) = labelsOf items ++ labelsOf later := by
  simp [labelsOf, recordsOf]

@[simp] theorem labelsOf_decodedOutputs (d : DecodedRecord) : labelsOf (decodedOutputs d) = [d.label] := rfl
@[simp] theorem labelsOf_errorOutputs (w : Word) : labelsOf (errorOutputs w) = [] := rfl

/-- There is one line for every word. -/
theorem Transcript.linesOf_length {lc : Nat} {ws : List Word} {items : List Output} (h : Transcript lc ws items) :
    (linesOf items).length = ws.length := by
  induction h with
  | nil => rfl
  | decoded d hit label later ih => simp [linesOf_append, ih, Nat.add_comm]
  | illegal miss later ih => simp [linesOf_append, ih, Nat.add_comm]

/-- The decoded words are labelled in order from the counter's first value. -/
theorem Transcript.labelsOf_eq {lc : Nat} {ws : List Word} {items : List Output} (h : Transcript lc ws items) :
    labelsOf items = List.range' lc (decodableCount device.opcodeRom ws) := by
  induction h with
  | nil => rfl
  | decoded d hit label later ih =>
    rw [labelsOf_append, labelsOf_decodedOutputs, label, ih, decodableCount_cons_of_hit _ hit, List.range'_succ,
      List.singleton_append]
  | illegal miss later ih =>
    rw [labelsOf_append, labelsOf_errorOutputs, ih, decodableCount_cons_of_miss _ miss, List.nil_append]

/-- A word that hits is answered by a record at the own label, its line, and the label commit (R102, R105). -/
theorem step_of_hit {s : State} {w : Word} {rest : List Event} (hp : s.phase = .running) (hin : s.input = .word w :: rest)
    (hhit : (classify device.opcodeRom w).isSome = true) : ∃ d : DecodedRecord, d.label = s.lc ∧
      step s = .next (((s.setInput rest).emit (decodedOutputs d)).setLc (s.lc + 1)) := by
  have hsome : decodeWord w ≠ none := fun h => Option.isSome_iff_ne_none.mp hhit ((decodeWord_eq_none_iff w).mp h)
  obtain ⟨i, hd⟩ := Option.ne_none_iff_exists'.mp hsome
  obtain ⟨m, fmt, mt, ops, -, hexec⟩ := exec_cases i (s.setInput rest)
  exact ⟨_, rfl, (step_of_decoded hp hin hd).trans hexec⟩

/-- A running device takes the words presented, one step each, and goes on with what follows them. -/
theorem core_run_words (ws : List Word) (k : Nat) {rest : List Event} {s : State} (hp : s.phase = .running)
    (hin : s.input = ws.map .word ++ rest) : ∃ items, Transcript s.lc ws items ∧
      Host.Core.run Sys2Proof.core (ws.length + k) s = Host.Core.run Sys2Proof.core k
        { lc := s.lc + decodableCount device.opcodeRom ws, phase := .running, input := rest, output := s.output ++ items } := by
  induction ws generalizing s with
  | nil =>
    have hs : s = { lc := s.lc, phase := .running, input := rest, output := s.output ++ [] } :=
      State.ext_fields rfl hp hin (List.append_nil _).symm
    refine ⟨[], .nil _, ?_⟩
    rw [List.length_nil, Nat.zero_add]
    exact congrArg (Host.Core.run Sys2Proof.core k) hs
  | cons w ws ih =>
    have hlen : (w :: ws).length + k = ws.length + k + 1 := Nat.add_right_comm ws.length 1 k
    have hword : s.input = .word w :: (ws.map .word ++ rest) := hin
    rw [hlen]
    cases hw : classify device.opcodeRom w with
    | none =>
      have hstep := step_of_illegal hp hword ((decodeWord_eq_none_iff w).mpr hw)
      obtain ⟨items, htr, hrun⟩ := ih (s := (s.setInput (ws.map .word ++ rest)).emit (errorOutputs w)) hp rfl
      refine ⟨errorOutputs w ++ items, .illegal hw htr, ?_⟩
      rw [core_run_of_next hstep, hrun, decodableCount_cons_of_miss ws hw]
      simp
    | some hit =>
      have hhit : (classify device.opcodeRom w).isSome = true := by rw [hw]; rfl
      obtain ⟨d, hlabel, hstep⟩ := step_of_hit hp hword hhit
      obtain ⟨items, htr, hrun⟩ :=
        ih (s := ((s.setInput (ws.map .word ++ rest)).emit (decodedOutputs d)).setLc (s.lc + 1)) hp rfl
      refine ⟨decodedOutputs d ++ items, .decoded d hhit hlabel htr, ?_⟩
      rw [core_run_of_next hstep, hrun, decodableCount_cons_of_hit ws hhit]
      simp [Nat.add_assoc, Nat.add_comm 1]

/-- A `Reset` and then the words: what the device does after a `Reset` in any state (R111, R240). -/
theorem core_run_reset_words (ws : List Word) (k : Nat) {rest : List Event} {s : State}
    (hin : s.input = .reset :: (ws.map .word ++ rest)) : ∃ items, Transcript 1 ws items ∧
      Host.Core.run Sys2Proof.core (ws.length + k + 1) s = Host.Core.run Sys2Proof.core k
        { lc := 1 + decodableCount device.opcodeRom ws, phase := .running, input := rest, output := s.output ++ items } := by
  rw [core_run_of_next (step_of_reset hin)]
  exact core_run_words (s := ((s.setInput _).setLc 1).setPhase .running) ws k rfl rfl

/-- Settles O53: the `Reset`, then one step per word of the file, then the `End`. -/
theorem everyFileIsDisassembledToItsEnd : Obligations.EveryFileIsDisassembledToItsEnd := by
  intro file s hs
  have hin : (s.present (runEvents file)).input = .reset :: ((framedWords file).map .word ++ [.endOfInput]) := by
    simp [hs, runEvents]
  obtain ⟨items, htr, hrun⟩ := core_run_reset_words (framedWords file) 1 hin
  have hend := hrun.trans (core_run_of_next (step_of_endOfInput rfl rfl))
  rw [framedWords_length, core_run_zero] at hend
  exact ⟨_, items, hend, rfl, rfl, rfl, rfl, htr.linesOf_length.trans (framedWords_length file), htr.labelsOf_eq⟩

/-! ## The default ROM's contents (R47, R72, R74) -/

/-- Settles O30: a finite check over the 27 rows. -/
theorem defaultRomIsPrefixFree : Obligations.DefaultRomIsPrefixFree := by
  have hwf : romWf device.opcodeRom = true := by decide
  have hprefix : ∀ a ∈ device.opcodeRom, ∀ b ∈ device.opcodeRom, widthBits b.width < widthBits a.width →
      a.value / 2 ^ (widthBits a.width - widthBits b.width) ≠ b.value := by decide
  exact ⟨hwf, rfl, hprefix⟩

end Sys2Proof.Machine

namespace Sys2Proof

open Sys2Proof.Machine

/-! ## The first hit decides (R71) -/

theorem decodeTransaction_of_miss {rom : OpcodeRom} {w : Word} (h : classify rom w = none) (cond : CondRom) (lc : Nat) :
    decodeTransaction rom cond lc w = .fail .decodeError w diagnostic lc := by
  simp only [decodeTransaction, h]

theorem decodeTransaction_of_hit {rom : OpcodeRom} {w : Word} {m : String} {fmt : Format}
    (h : classify rom w = some (m, fmt)) (cond : CondRom) (lc : Nat) :
    decodeTransaction rom cond lc w =
      .ok (recordOf m fmt (shapeOf m fmt) w lc (mnemText cond m w) (operandText (shapeOf m fmt) w lc))
        ("L" ++ dec lc ++ ": " ++ mnemText cond m w ++ operandText (shapeOf m fmt) w lc) (lc + 1) := by
  simp only [decodeTransaction, h]

/-- Settles O31: the probes in the order of the definition. -/
theorem firstHitInProbeOrderWins : Obligations.FirstHitInProbeOrderWins := by
  intro rom w
  refine ⟨fun m h11 => ?_, fun m h11 h10 => ?_, fun m h11 h10 h8 => ?_, fun m h11 h10 h8 h6 => ?_, fun h11 h10 h8 h6 => ?_⟩
  · simp only [classify, op11, slice, h11, formatOf]
  · simp only [classify, op11, op10, slice, h11, h10, formatOf]
  · simp only [classify, op11, op10, op8, slice, h11, h10, h8, formatOf]
  · simp only [classify, op11, op10, op8, op6, slice, h11, h10, h8, h6, formatOf]
  · have hmiss : classify rom w = none := classify_eq_none_iff.mpr fun
      | .w11 => h11 | .w10 => h10 | .w8 => h8 | .w6 => h6
    exact ⟨hmiss, decodeTransaction_of_miss hmiss⟩

/-- A hit decides the classification where no wider probe hits. -/
theorem classify_of_first_hit {rom : OpcodeRom} {w : Word} {k : OpWidth} {m : String}
    (hit : romLookup rom k (opField w k) = some m)
    (wider : ∀ k', widthBits k < widthBits k' → romLookup rom k' (opField w k') = none) :
    classify rom w = some (m, formatOf k) := by
  obtain ⟨first11, first10, first8, first6, -⟩ := firstHitInProbeOrderWins rom w
  cases k with
  | w11 => exact first11 m hit
  | w10 => exact first10 m (wider .w11 (by decide)) hit
  | w8 => exact first8 m (wider .w11 (by decide)) (wider .w10 (by decide)) hit
  | w6 => exact first6 m (wider .w11 (by decide)) (wider .w10 (by decide)) (wider .w8 (by decide)) hit

/-! ## An added entry (R70) -/

/-- An added entry is seen at its own address only. -/
theorem romLookup_append_of_ne {rom : OpcodeRom} {e : OpcodeEntry} {k : OpWidth} {v : Nat}
    (h : ¬ (e.width = k ∧ e.value = v)) : romLookup (rom ++ [e]) k v = romLookup rom k v := by
  have hp : (e.width == k && e.value == v) = false := by simpa using h
  simp [romLookup, List.find?_append, hp]

/-- A word that does not match an added entry classifies as before. -/
theorem classify_append_of_ne {rom : OpcodeRom} {e : OpcodeEntry} {w : Word} (h : opField w e.width ≠ e.value) :
    classify (rom ++ [e]) w = classify rom w := by
  have hsame : ∀ k, romLookup (rom ++ [e]) k (opField w k) = romLookup rom k (opField w k) := fun k =>
    romLookup_append_of_ne fun ⟨hk, hv⟩ => h (by rw [hk, hv])
  have h11 := hsame .w11
  have h10 := hsame .w10
  have h8 := hsame .w8
  have h6 := hsame .w6
  simp only [opField] at h11 h10 h8 h6
  simp only [classify, h11, h10, h8, h6]

/-! ## The opcode field at each width: the word's top bits (R61) -/

theorem widthBits_le (k : OpWidth) : widthBits k ≤ 11 := by cases k <;> decide

theorem opField_eq_div (w : Word) (k : OpWidth) : opField w k = w.toNat / 2 ^ (32 - widthBits k) := by
  cases k <;> simp only [opField, op11, op10, op8, op6, slice_toNat, widthBits] <;> omega

/-- A narrower field is the top bits of a wider one. -/
theorem opField_div_of_lt (w : Word) {k k' : OpWidth} (h : widthBits k < widthBits k') :
    opField w k' / 2 ^ (widthBits k' - widthBits k) = opField w k := by
  have hle := widthBits_le k'
  have hexp : 32 - widthBits k' + (widthBits k' - widthBits k) = 32 - widthBits k := by omega
  rw [opField_eq_div, opField_eq_div, Nat.div_div_eq_div_mul, ← pow_add, hexp]

/-! ## The device's rows (R72): a word is a row's exactly when its field at the row's width is the row's value -/

/-- In a ROM that holds at most one entry at an address, an entry is found at its address. -/
theorem romLookup_of_mem {rom : OpcodeRom} (hwf : romWf rom = true) {e : OpcodeEntry} (he : e ∈ rom) :
    romLookup rom e.width e.value = some e.mnem := by
  simp only [romWf, Bool.and_eq_true, decide_eq_true_eq] at hwf
  obtain ⟨-, hnodup⟩ := hwf
  cases h : romLookup rom e.width e.value with
  | none =>
    rw [romLookup, Option.map_eq_none_iff, List.find?_eq_none] at h
    exact absurd (by simp) (h e he)
  | some m =>
    obtain ⟨e', he', hwidth, hvalue, rfl⟩ := romLookup_mem h
    rw [List.inj_on_of_nodup_map hnodup he' he (Prod.ext hwidth hvalue)]

theorem value_lt_of_mem {e : OpcodeEntry} (he : e ∈ device.opcodeRom) : e.value < 2 ^ widthBits e.width := by
  obtain ⟨hwf, -, -⟩ := defaultRomIsPrefixFree
  simp only [romWf, Bool.and_eq_true, List.all_eq_true, decide_eq_true_eq] at hwf
  obtain ⟨hfits, -⟩ := hwf
  exact hfits e he

/-- A word that matches a row of the device's ROM is that row's: no wider row matches it, since none begins with the row's pattern. -/
theorem classify_of_row {w : Word} {e : OpcodeEntry} (he : e ∈ device.opcodeRom) (hop : opField w e.width = e.value) :
    classify device.opcodeRom w = some (e.mnem, formatOf e.width) := by
  obtain ⟨hwf, -, hprefix⟩ := defaultRomIsPrefixFree
  refine classify_of_first_hit (by rw [hop, romLookup_of_mem hwf he]) fun k hk => ?_
  by_contra hne
  obtain ⟨m, hm⟩ := Option.ne_none_iff_exists'.mp hne
  obtain ⟨a, ha, rfl, hvalue, -⟩ := romLookup_mem hm
  exact hprefix a ha e he hk (by rw [hvalue, opField_div_of_lt w hk, hop])

/-- The device's rows have different mnemonics. -/
theorem device_mnem_nodup : (device.opcodeRom.map OpcodeEntry.mnem).Nodup := by decide

/-- A word matches one row at most. -/
theorem row_unique {w : Word} {e e' : OpcodeEntry} (he : e ∈ device.opcodeRom) (he' : e' ∈ device.opcodeRom)
    (hop : opField w e.width = e.value) (hop' : opField w e'.width = e'.value) : e = e' := by
  have heq := (classify_of_row he hop).symm.trans (classify_of_row he' hop')
  rw [Option.some.injEq, Prod.mk.injEq] at heq
  exact List.inj_on_of_nodup_map device_mnem_nodup he he' heq.1

theorem classify_eq_some_iff_of_row {w : Word} {e : OpcodeEntry} (he : e ∈ device.opcodeRom) :
    classify device.opcodeRom w = some (e.mnem, formatOf e.width) ↔ opField w e.width = e.value := by
  refine ⟨fun h => ?_, classify_of_row he⟩
  obtain ⟨e', he', hop, hmnem, -⟩ := classify_mem h
  rwa [List.inj_on_of_nodup_map device_mnem_nodup he he' hmnem]

/-- What the decoder answers for a word that matches a row. -/
theorem decodeWord_of_row {w : Word} {e : OpcodeEntry} (he : e ∈ device.opcodeRom) (hop : opField w e.width = e.value) :
    decodeWord w = instrOf e.mnem w :=
  decodeWord_of_classify (classify_of_row he hop)

/-- The decoder rejects exactly the words that match no row. -/
theorem decodeWord_eq_none_iff_no_row (w : Word) :
    decodeWord w = none ↔ ∀ e ∈ device.opcodeRom, opField w e.width ≠ e.value := by
  rw [decodeWord_eq_none_iff]
  constructor
  · intro hnone e he hop
    rw [classify_of_row he hop] at hnone
    cases hnone
  · intro hno
    by_contra hne
    obtain ⟨⟨m, fmt⟩, h⟩ := Option.ne_none_iff_exists'.mp hne
    obtain ⟨e, he, hop, -⟩ := classify_mem h
    exact hno e he hop

/-- A word that decodes matches a row, whose instruction it gives. -/
theorem row_of_decodeWord {w : Word} {i : Instr} (h : decodeWord w = some i) :
    ∃ e ∈ device.opcodeRom, opField w e.width = e.value ∧ instrOf e.mnem w = some i := by
  have hsome : ¬ ∀ e ∈ device.opcodeRom, opField w e.width ≠ e.value := by
    rw [← decodeWord_eq_none_iff_no_row, h]; exact nofun
  push Not at hsome
  obtain ⟨e, he, hop⟩ := hsome
  exact ⟨e, he, hop, by rw [← decodeWord_of_row he hop, h]⟩

/-! ## Decode and encode agree, both ways (R62 to R69) -/

theorem roundTrip : ∀ i : Instr, Laws.RoundTrip.Statement i
  | .add rd rn rm u => Laws.RoundTrip.add rd rn rm u
  | .and rd rn rm u => Laws.RoundTrip.and rd rn rm u
  | .eor rd rn rm u => Laws.RoundTrip.eor rd rn rm u
  | .orr rd rn rm u => Laws.RoundTrip.orr rd rn rm u
  | .sub rd rn rm u => Laws.RoundTrip.sub rd rn rm u
  | .subs rd rn rm u => Laws.RoundTrip.subs rd rn rm u
  | .mul rd rn rm u => Laws.RoundTrip.mul rd rn rm u
  | .br rn hi lo => Laws.RoundTrip.br rn hi lo
  | .lsl rd rn n u => Laws.RoundTrip.lsl rd rn n u
  | .lsr rd rn n u => Laws.RoundTrip.lsr rd rn n u
  | .prnt rn rd u => Laws.RoundTrip.prnt rn rd u
  | .ldur rt rn o u => Laws.RoundTrip.ldur rt rn o u
  | .stur rt rn o u => Laws.RoundTrip.stur rt rn o u
  | .prnl u => Laws.RoundTrip.prnl u
  | .dump u => Laws.RoundTrip.dump u
  | .halt u => Laws.RoundTrip.halt u
  | .addi rd rn k => Laws.RoundTrip.addi rd rn k
  | .andi rd rn k => Laws.RoundTrip.andi rd rn k
  | .eori rd rn k => Laws.RoundTrip.eori rd rn k
  | .orri rd rn k => Laws.RoundTrip.orri rd rn k
  | .subi rd rn k => Laws.RoundTrip.subi rd rn k
  | .subis rd rn k => Laws.RoundTrip.subis rd rn k
  | .cbz o u => Laws.RoundTrip.cbz o u
  | .cbnz o u => Laws.RoundTrip.cbnz o u
  | .bCond c o u => Laws.RoundTrip.bCond c o u
  | .b o => Laws.RoundTrip.b o
  | .bl o => Laws.RoundTrip.bl o

/-- Settles O23: each instruction's own round trip. -/
theorem decodingTheEncodingGivesTheInstruction : Obligations.DecodingTheEncodingGivesTheInstruction :=
  roundTrip

section Repack

variable {w : Word}

/-! A word is its opcode field packed over its own slices, layout by layout. -/

theorem packR_slices {op : BitVec 11} (h : (op11 w).toNat = op.toNat) :
    packR op (rmField w) (shamtField w) (rnField w) (rdField w) = w := by
  apply BitVec.eq_of_toNat_eq
  simp only [op11, slice_toNat] at h
  simp only [packR_toNat, rmField, shamtField, rnField, rdField, slice_toNat]
  omega

/-- A shift amount read from its field goes back into the field. -/
theorem packR_ofNat_shamt {op : BitVec 11} (h : (op11 w).toNat = op.toNat) :
    packR op (rmField w) (BitVec.ofNat 6 (shamtField w).toNat) (rnField w) (rdField w) = w := by
  rw [BitVec.ofNat_toNat, BitVec.setWidth_eq, packR_slices h]

theorem packD_slices {op : BitVec 11} (h : (op11 w).toNat = op.toNat) :
    packD op (sext (dtoffField w)) (slice w 10 2) (rnField w) (rtField w) = w := by
  apply BitVec.eq_of_toNat_eq
  simp only [op11, slice_toNat] at h
  simp only [packD_toNat, ofInt_sext, dtoffField, rnField, rtField, slice_toNat]
  omega

theorem packI_slices {op : BitVec 10} (h : (op10 w).toNat = op.toNat) :
    packI op (sext (immField w)) (rnField w) (rdField w) = w := by
  apply BitVec.eq_of_toNat_eq
  simp only [op10, slice_toNat] at h
  simp only [packI_toNat, ofInt_sext, immField, rnField, rdField, slice_toNat]
  omega

theorem packCB_slices {op : BitVec 8} (h : (op8 w).toNat = op.toNat) :
    packCB op (sext (cboffField w)) (slice w 0 5) = w := by
  apply BitVec.eq_of_toNat_eq
  simp only [op8, slice_toNat] at h
  simp only [packCB_toNat, ofInt_sext, cboffField, slice_toNat]
  omega

theorem packB_slices {op : BitVec 6} (h : (op6 w).toNat = op.toNat) : packB op (sext (boffField w)) = w := by
  apply BitVec.eq_of_toNat_eq
  simp only [op6, slice_toNat] at h
  simp only [packB_toNat, ofInt_sext, boffField, slice_toNat]
  omega

/-- The layout of BR and PRNT, whose bits 20:10 are not read. -/
theorem packUnread11_slices {op : BitVec 11} (h : (op11 w).toNat = op.toNat) :
    (op ++ slice w 10 11 ++ rnField w ++ rdField w).cast rfl = w := by
  apply BitVec.eq_of_toNat_eq
  simp only [op11, slice_toNat] at h
  simp only [BitVec.toNat_cast, append_toNat, rnField, rdField, slice_toNat]
  omega

/-- The layout of PRNL, DUMP and HALT, whose bits 20:0 are not read. -/
theorem packUnread21_slices {op : BitVec 11} (h : (op11 w).toNat = op.toNat) : (op ++ slice w 0 21).cast rfl = w := by
  apply BitVec.eq_of_toNat_eq
  simp only [op11, slice_toNat] at h
  simp only [BitVec.toNat_cast, append_toNat, slice_toNat]
  omega

/-- The low five bits of a `B.` word are bit 4 and the condition code (R81). -/
theorem bit4_append_condField : slice w 4 1 ++ condField w = slice w 0 5 := by
  apply BitVec.eq_of_toNat_eq
  simp only [append_toNat, condField, slice_toNat]
  omega

/-- The layout of `B.`, whose low five bits are bit 4 and the condition code (R81). -/
theorem packCB_cond_slices {op : BitVec 8} (h : (op8 w).toNat = op.toNat) :
    packCB op (sext (cboffField w)) (slice w 4 1 ++ condField w) = w := by
  rw [bit4_append_condField, packCB_slices h]

end Repack

/-- A word of the row decodes to a well-formed instruction that encodes to the word. -/
def RowReencodes (w : Word) (e : OpcodeEntry) : Prop :=
  opField w e.width = e.value → ∃ i, instrOf e.mnem w = some i ∧ i.wf = true ∧ encode i = w

theorem fitsUnsigned_toNat {n : Nat} (v : BitVec n) : fitsUnsigned n v.toNat = true := decide_eq_true v.isLt

section Rows

variable (w : Word)

theorem romRowsR_reencode : ∀ e ∈ romRowsR, RowReencodes w e := by
  have hwf := fitsSigned_sext (by decide) (dtoffField w)
  simp only [romRowsR, List.forall_mem_cons, List.not_mem_nil, false_implies, implies_true, and_true]
  refine ⟨?add, ?and, ?eor, ?orr, ?sub, ?subs, ?mul, ?br, ?lsl, ?lsr, ?prnt, ?ldur, ?stur, ?prnl, ?dump, ?halt⟩
  case add | and | eor | orr | sub | subs | mul => exact fun h => ⟨_, rfl, rfl, packR_slices h⟩
  case br | prnt => exact fun h => ⟨_, rfl, rfl, packUnread11_slices h⟩
  case lsl | lsr => exact fun h => ⟨_, rfl, fitsUnsigned_toNat _, packR_ofNat_shamt h⟩
  case ldur | stur => exact fun h => ⟨_, rfl, hwf, packD_slices h⟩
  case prnl | dump | halt => exact fun h => ⟨_, rfl, rfl, packUnread21_slices h⟩

theorem romRowsI_reencode : ∀ e ∈ romRowsI, RowReencodes w e := by
  have hwf := fitsSigned_sext (by decide) (immField w)
  simp only [romRowsI, List.forall_mem_cons, List.not_mem_nil, false_implies, implies_true, and_true]
  refine ⟨?addi, ?andi, ?eori, ?orri, ?subi, ?subis⟩
  all_goals exact fun h => ⟨_, rfl, hwf, packI_slices h⟩

theorem romRowsCB_reencode : ∀ e ∈ romRowsCB, RowReencodes w e := by
  have hwf := fitsSigned_sext (by decide) (cboffField w)
  simp only [romRowsCB, List.forall_mem_cons, List.not_mem_nil, false_implies, implies_true, and_true]
  refine ⟨?cbz, ?cbnz, ?bCond⟩
  case cbz | cbnz => exact fun h => ⟨_, rfl, hwf, packCB_slices h⟩
  case bCond => exact fun h => ⟨_, rfl, hwf, packCB_cond_slices h⟩

theorem romRowsB_reencode : ∀ e ∈ romRowsB, RowReencodes w e := by
  have hwf := fitsSigned_sext (by decide) (boffField w)
  simp only [romRowsB, List.forall_mem_cons, List.not_mem_nil, false_implies, implies_true, and_true]
  refine ⟨?b, ?bl⟩
  all_goals exact fun h => ⟨_, rfl, hwf, packB_slices h⟩

/-- The device's rows, format by format. -/
theorem device_rows_reencode : ∀ e ∈ device.opcodeRom, RowReencodes w e := by
  simp only [device, defaultOpcodeRom, List.forall_mem_append]
  exact ⟨⟨⟨romRowsR_reencode w, romRowsI_reencode w⟩, romRowsCB_reencode w⟩, romRowsB_reencode w⟩

end Rows

/-- Settles O24: the word matches a row, and the row's instruction encodes to the word. -/
theorem encodingTheDecodedGivesTheWord : Obligations.EncodingTheDecodedGivesTheWord := by
  intro w i h
  obtain ⟨e, he, hop, hi⟩ := row_of_decodeWord h
  obtain ⟨j, hj, hwf, hencode⟩ := device_rows_reencode w e he hop
  cases hi.symm.trans hj
  exact ⟨hwf, hencode⟩

/-! ## What the decoder reads, field by field (R62 to R68) -/

/-- `sext` in the form of R68: offset by `-2^n` from the threshold on. -/
theorem sext_eq_ite {n : Nat} (v : BitVec n) :
    sext v = if 2 ^ (n - 1) ≤ v.toNat then (v.toNat : Int) - 2 ^ n else (v.toNat : Int) := by
  split_ifs with h
  · exact sext_of_le_toNat h
  · exact sext_of_toNat_lt (Nat.lt_of_not_le h)

section RowDecodes

variable {w : Word} {m : String}

/-! `decodeWord_of_row` at each width, with the row's value as the bit pattern of the field. -/

theorem decodeWord_of_op11 {v : BitVec 11} (he : ⟨.w11, v.toNat, m⟩ ∈ device.opcodeRom) (h : op11 w = v) :
    decodeWord w = instrOf m w := decodeWord_of_row he (congrArg BitVec.toNat h)

theorem decodeWord_of_op10 {v : BitVec 10} (he : ⟨.w10, v.toNat, m⟩ ∈ device.opcodeRom) (h : op10 w = v) :
    decodeWord w = instrOf m w := decodeWord_of_row he (congrArg BitVec.toNat h)

theorem decodeWord_of_op8 {v : BitVec 8} (he : ⟨.w8, v.toNat, m⟩ ∈ device.opcodeRom) (h : op8 w = v) :
    decodeWord w = instrOf m w := decodeWord_of_row he (congrArg BitVec.toNat h)

theorem decodeWord_of_op6 {v : BitVec 6} (he : ⟨.w6, v.toNat, m⟩ ∈ device.opcodeRom) (h : op6 w = v) :
    decodeWord w = instrOf m w := decodeWord_of_row he (congrArg BitVec.toNat h)

end RowDecodes

/-- Settles O25: each pattern is a row's, and the slices are those of R67. -/
theorem registerFormatWordsDecode : Obligations.RegisterFormatWordsDecode := by
  intro w
  have hoffset := sext_eq_ite (dtoffField w)
  exact ⟨decodeWord_of_op11 (m := "ADD") (by decide), decodeWord_of_op11 (m := "AND") (by decide),
    decodeWord_of_op11 (m := "EOR") (by decide), decodeWord_of_op11 (m := "ORR") (by decide),
    decodeWord_of_op11 (m := "SUB") (by decide), decodeWord_of_op11 (m := "SUBS") (by decide),
    decodeWord_of_op11 (m := "MUL") (by decide), decodeWord_of_op11 (m := "BR") (by decide),
    decodeWord_of_op11 (m := "LSL") (by decide), decodeWord_of_op11 (m := "LSR") (by decide),
    decodeWord_of_op11 (m := "PRNT") (by decide),
    fun h => hoffset ▸ decodeWord_of_op11 (m := "LDUR") (by decide) h,
    fun h => hoffset ▸ decodeWord_of_op11 (m := "STUR") (by decide) h,
    decodeWord_of_op11 (m := "PRNL") (by decide),
    decodeWord_of_op11 (m := "DUMP") (by decide), decodeWord_of_op11 (m := "HALT") (by decide)⟩

/-- Settles O26: each pattern is a row's, and the immediate is the sign-extended field. -/
theorem immediateFormatWordsDecode : Obligations.ImmediateFormatWordsDecode := by
  intro w imm himm
  have hsext : imm = sext (immField w) := himm.trans (sext_eq_ite (immField w)).symm
  subst hsext
  exact ⟨decodeWord_of_op10 (m := "ADDI") (by decide), decodeWord_of_op10 (m := "ANDI") (by decide),
    decodeWord_of_op10 (m := "EORI") (by decide), decodeWord_of_op10 (m := "ORRI") (by decide),
    decodeWord_of_op10 (m := "SUBI") (by decide), decodeWord_of_op10 (m := "SUBIS") (by decide)⟩

/-- Settles O27: each pattern is a row's, and the offset is the sign-extended field. -/
theorem branchFormatWordsDecode : Obligations.BranchFormatWordsDecode := by
  intro w cboff boff hcboff hboff
  have hcb : cboff = sext (cboffField w) := hcboff.trans (sext_eq_ite (cboffField w)).symm
  have hb : boff = sext (boffField w) := hboff.trans (sext_eq_ite (boffField w)).symm
  subst hcb hb
  exact ⟨decodeWord_of_op8 (m := "CBZ") (by decide), decodeWord_of_op8 (m := "CBNZ") (by decide),
    decodeWord_of_op8 (m := "B.") (by decide), decodeWord_of_op6 (m := "B") (by decide),
    decodeWord_of_op6 (m := "BL") (by decide)⟩

end Sys2Proof

namespace Sys2Proof.Machine

/-! ## Match and mask (R72, R74, R75) -/

/-- The row's `match` and `mask` columns: its value over zeros, and ones over zeros, at the width's place. -/
def maskRowOf (e : OpcodeEntry) : MaskRow where
  mnem  := e.mnem
  fmt   := formatOf e.width
  value := BitVec.ofNat 32 (e.value * 2 ^ (32 - widthBits e.width))
  mask  := BitVec.allOnes 32 <<< (32 - widthBits e.width)

/-- The columns of R72 are those of the device's ROM, row by row. -/
theorem maskRows_eq_map : maskRows = device.opcodeRom.map maskRowOf := by decide

theorem toNat_and_mask (w : Word) (e : OpcodeEntry) :
    (w &&& (maskRowOf e).mask).toNat = opField w e.width * 2 ^ (32 - widthBits e.width) := by
  have hlt : w.toNat / 2 ^ (32 - widthBits e.width) * 2 ^ (32 - widthBits e.width) < 2 ^ 32 :=
    (Nat.div_mul_le_self _ _).trans_lt w.isLt
  rw [maskRowOf, ← BitVec.shiftLeft_ushiftRight, BitVec.toNat_shiftLeft, BitVec.toNat_ushiftRight, Nat.shiftRight_eq_div_pow,
    Nat.shiftLeft_eq, Nat.mod_eq_of_lt hlt, opField_eq_div]

/-- A word matches a row under its mask exactly when its field holds the row's value. -/
theorem and_mask_eq_value_iff {w : Word} {e : OpcodeEntry} (he : e ∈ device.opcodeRom) :
    w &&& (maskRowOf e).mask = (maskRowOf e).value ↔ opField w e.width = e.value := by
  have hfits : e.value * 2 ^ (32 - widthBits e.width) < 2 ^ 32 := by
    calc e.value * 2 ^ (32 - widthBits e.width)
        < 2 ^ widthBits e.width * 2 ^ (32 - widthBits e.width) :=
          Nat.mul_lt_mul_of_pos_right (value_lt_of_mem he) (Nat.two_pow_pos _)
      _ = 2 ^ 32 := by rw [← pow_add, Nat.add_sub_cancel' ((widthBits_le e.width).trans (by decide))]
  have hvalue : (maskRowOf e).value.toNat = e.value * 2 ^ (32 - widthBits e.width) := by
    rw [maskRowOf, BitVec.toNat_ofNat, Nat.mod_eq_of_lt hfits]
  rw [← BitVec.toNat_inj, toNat_and_mask, hvalue, Nat.mul_left_inj (Nat.two_pow_pos _).ne']

/-- Settles O28: both columns are the row's field and value, and a field value decides the row. -/
theorem maskAndMatchDecideTheRow : Obligations.MaskAndMatchDecideTheRow := by
  intro w
  simp only [maskRows_eq_map, List.forall_mem_map]
  refine ⟨fun e he => ?_, ?_⟩
  · rw [and_mask_eq_value_iff he]
    exact classify_eq_some_iff_of_row he
  · rw [decodeWord_eq_none_iff_no_row]
    exact forall₂_congr fun e he => (and_mask_eq_value_iff he).not.symm

/-! ## How many field values decode (R75) -/

/-- The word whose bits 31:21 are `v` and whose other bits are 0. -/
def fieldWord (v : Nat) : Word := BitVec.ofNat 32 (v * 2 ^ 21)

theorem opField_fieldWord {v : Nat} (hv : v < 2048) (k : OpWidth) : opField (fieldWord v) k = v / 2 ^ (11 - widthBits k) := by
  have hword : (fieldWord v).toNat = v * 2 ^ 21 := by rw [fieldWord, BitVec.toNat_ofNat]; omega
  have hexp : 32 - widthBits k = 21 + (11 - widthBits k) := by have := widthBits_le k; omega
  rw [opField_eq_div, hword, hexp, pow_add, ← Nat.div_div_eq_div_mul, Nat.mul_div_cancel _ (by decide)]

/-- Whether a word decodes depends on its 11-bit field alone. -/
theorem decodeWord_isSome_of_op11_eq {w w' : Word} (h : (op11 w).toNat = (op11 w').toNat) :
    (decodeWord w).isSome = (decodeWord w').isSome := by
  have hnone : decodeWord w = none ↔ decodeWord w' = none := by
    simp only [decodeWord_eq_none_iff, classify_eq_classifyField, h]
  rw [Bool.eq_iff_iff, Option.isSome_iff_ne_none, Option.isSome_iff_ne_none, not_iff_not, hnone]

/-- The 11-bit fields that begin with a row's pattern. -/
def rowFields (e : OpcodeEntry) : Finset Nat :=
  Finset.Ico (e.value * 2 ^ (11 - widthBits e.width)) ((e.value + 1) * 2 ^ (11 - widthBits e.width))

theorem card_rowFields (e : OpcodeEntry) : (rowFields e).card = 2 ^ (11 - widthBits e.width) := by
  rw [rowFields, Nat.card_Ico, Nat.add_one_mul, Nat.add_sub_cancel_left]

theorem lt_of_mem_rowFields {e : OpcodeEntry} (he : e ∈ device.opcodeRom) {v : Nat} (hv : v ∈ rowFields e) : v < 2048 := by
  calc v < (e.value + 1) * 2 ^ (11 - widthBits e.width) := (Finset.mem_Ico.mp hv).2
    _ ≤ 2 ^ widthBits e.width * 2 ^ (11 - widthBits e.width) := Nat.mul_le_mul_right _ (value_lt_of_mem he)
    _ = 2 ^ 11 := by rw [← pow_add, Nat.add_sub_cancel' (widthBits_le e.width)]

theorem mem_rowFields_iff {e : OpcodeEntry} {v : Nat} (hv : v < 2048) :
    v ∈ rowFields e ↔ opField (fieldWord v) e.width = e.value := by
  rw [rowFields, Finset.mem_Ico, opField_fieldWord hv, Nat.div_eq_iff (Nat.two_pow_pos _), Nat.add_one_mul]
  have := Nat.two_pow_pos (11 - widthBits e.width)
  omega

theorem decodeWord_fieldWord_isSome_iff {v : Nat} (hv : v < 2048) :
    (decodeWord (fieldWord v)).isSome = true ↔ ∃ e ∈ device.opcodeRom, v ∈ rowFields e := by
  rw [Option.isSome_iff_ne_none, ne_eq, decodeWord_eq_none_iff_no_row]
  push Not
  exact exists_congr fun e => and_congr_right fun _ => (mem_rowFields_iff hv).symm

/-- No two rows share an 11-bit field. -/
theorem rowFields_disjoint {e e' : OpcodeEntry} (he : e ∈ device.opcodeRom) (he' : e' ∈ device.opcodeRom) (hne : e ≠ e') :
    Disjoint (rowFields e) (rowFields e') := by
  refine Finset.disjoint_left.mpr fun v hv hv' => hne ?_
  have hlt := lt_of_mem_rowFields he hv
  exact row_unique he he' ((mem_rowFields_iff hlt).mp hv) ((mem_rowFields_iff hlt).mp hv')

/-- The fields that decode are those of the rows, put together. -/
theorem decoding_fields_eq_biUnion :
    (Finset.range 2048).filter (fun v => (decodeWord (fieldWord v)).isSome = true) =
      device.opcodeRom.toFinset.biUnion rowFields := by
  ext v
  simp only [Finset.mem_filter, Finset.mem_range, Finset.mem_biUnion, List.mem_toFinset]
  constructor
  · rintro ⟨hv, hsome⟩
    exact (decodeWord_fieldWord_isSome_iff hv).mp hsome
  · rintro ⟨e, he, hmem⟩
    have hv := lt_of_mem_rowFields he hmem
    exact ⟨hv, (decodeWord_fieldWord_isSome_iff hv).mpr ⟨e, he, hmem⟩⟩

theorem countP_range_eq_card (p : Nat → Bool) (n : Nat) :
    (List.range n).countP p = ((Finset.range n).filter fun v => p v = true).card := by
  simp [← Nat.count_eq_card_filter_range, Nat.count]

/-- 16 rows of one field each, 6 of two, 3 of eight, 2 of thirty-two. -/
theorem card_decoding_fields :
    ((Finset.range 2048).filter fun v => (decodeWord (fieldWord v)).isSome = true).card = 116 := by
  have hrows : (device.opcodeRom.map fun e => 2 ^ (11 - widthBits e.width)).sum = 116 := by decide
  rw [decoding_fields_eq_biUnion, Finset.card_biUnion fun e he e' he' hne =>
    rowFields_disjoint (List.mem_toFinset.mp he) (List.mem_toFinset.mp he') hne]
  simp only [card_rowFields]
  rw [List.sum_toFinset _ (List.Nodup.of_map _ device_mnem_nodup), hrows]

/-- Settles O29: the rows' fields are disjoint, so their numbers add up; and the classification reads bits 31:21 only. -/
theorem oneHundredSixteenFieldValuesDecode : Obligations.OneHundredSixteenFieldValuesDecode := by
  constructor
  · exact (countP_range_eq_card _ 2048).trans card_decoding_fields
  · intro w
    have hfield : opField (fieldWord (op11 w).toNat) .w11 = (op11 w).toNat :=
      (opField_fieldWord (op11 w).isLt .w11).trans (Nat.div_one _)
    exact decodeWord_isSome_of_op11_eq hfield.symm

/-! ## An added entry (R70, R71, R78) -/

/-- Settles O32: a word of the added field is classified by that field's value; every other word does not match the entry. -/
theorem addedWideEntryWinsOverB : Obligations.AddedWideEntryWinsOverB := by
  intro w
  refine ⟨fun h => ?_, fun h => classify_append_of_ne fun hop => h (BitVec.eq_of_toNat_eq hop)⟩
  have hop : (op11 w).toNat = 0b00010100000 := congrArg BitVec.toNat h
  exact ⟨(classify_of_op11 hop).trans (by decide), (classify_of_op11 hop).trans (by decide), by decide⟩

/-! ## Numerals and register names (R84, R86) -/

theorem dec_natCast (n : Nat) : dec n = Nat.repr n := if_neg (Int.natCast_nonneg n).not_gt

theorem dec_natCast_toList (n : Nat) : (dec n).toList = Nat.toDigits 10 n := by
  rw [dec_natCast, Nat.toList_repr]

theorem dec_neg_natCast {n : Nat} (hn : 0 < n) : dec (-(n : Int)) = "-" ++ dec n := by
  have hneg : -(n : Int) < 0 := by omega
  rw [dec, if_pos hneg, Int.natAbs_neg, Int.natAbs_natCast, dec_natCast]

theorem digitsValue_dec (n : Nat) : digitsValue (dec n).toList = n := by
  rw [dec_natCast_toList]
  exact Nat.ofDigitChars_ten_toDigits

theorem isDigit_iff {c : Char} : c.isDigit = true ↔ '0' ≤ c ∧ c ≤ '9' := by
  simp [Char.isDigit, Char.le_def]

theorem eq_zero_of_digitChar_eq_zero : ∀ n < 10, Nat.digitChar n = '0' → n = 0 := by decide

/-- Only the numeral of 0 begins with a 0: the first digit of `n ≥ 10` is that of `n / 10`. -/
theorem eq_zero_of_head_toDigits {n : Nat} (h : (Nat.toDigits 10 n).head? = some '0') : n = 0 := by
  induction n using Nat.strongRecOn with
  | _ n ih =>
    by_cases hn : n < 10
    · rw [Nat.toDigits_of_lt_base hn, List.head?_cons, Option.some.injEq] at h
      exact eq_zero_of_digitChar_eq_zero n hn h
    · rw [Nat.toDigits_of_base_le (by decide) (Nat.le_of_not_lt hn), List.head?_append_of_ne_nil _ Nat.toDigits_ne_nil] at h
      have hdiv := ih (n / 10) (by omega) h
      omega

/-- Settles O35: the library's facts about base 10, and the first digit by induction. -/
theorem decimalNumeralsAreExact : Obligations.DecimalNumeralsAreExact := by
  refine ⟨fun n => ⟨digitsValue_dec n, fun c hc => ?_, fun hhead => ?_⟩, fun n => dec_neg_natCast⟩
  · rw [dec_natCast_toList] at hc
    exact isDigit_iff.mp (Nat.isDigit_of_mem_toDigits (by decide) (by decide) hc)
  · rw [dec_natCast_toList] at hhead
    obtain rfl := eq_zero_of_head_toDigits hhead
    exact ⟨rfl, rfl⟩

/-- Settles O34: the four reserved codes, and the others below them. -/
theorem registerNames : Obligations.RegisterNames := by
  refine fun c => ⟨fun hc => ?_, ?_, ?_, ?_, ?_⟩
  · rw [regname, if_neg (by omega), if_neg (by omega), if_neg (by omega), if_neg (by omega)]
  all_goals
    rintro rfl
    rfl

/-! ## The operands' value ranges (R68) -/

theorem sext_range {n : Nat} (hn : 0 < n) (v : BitVec n) : -2 ^ (n - 1) ≤ sext v ∧ sext v ≤ 2 ^ (n - 1) - 1 := by
  have h := fitsSigned_sext hn v
  simp only [fitsSigned, Bool.and_eq_true, decide_eq_true_eq] at h
  exact ⟨h.1, Int.le_sub_one_of_lt h.2⟩

/-- Settles O37: each field's range at its width. -/
theorem operandValueRanges : Obligations.OperandValueRanges := by
  intro w
  obtain ⟨hdtoff, hdtoff'⟩ := sext_range (by decide) (dtoffField w)
  obtain ⟨himm, himm'⟩ := sext_range (by decide) (immField w)
  obtain ⟨hcboff, hcboff'⟩ := sext_range (by decide) (cboffField w)
  obtain ⟨hboff, hboff'⟩ := sext_range (by decide) (boffField w)
  exact ⟨Nat.le_of_lt_succ (shamtField w).isLt, hdtoff, hdtoff', himm, himm', hcboff, hcboff', hboff, hboff'⟩

/-! ## The bits a shape reads (R62 to R66, R81, D12) -/

/-- Words that agree under a mask agree on every field that the mask covers. -/
theorem slice_eq_of_and_eq {w w' mask : Word} (h : w &&& mask = w' &&& mask) (lo len : Nat)
    (hcovers : slice mask lo len = BitVec.allOnes len) : slice w lo len = slice w' lo len := by
  have hslice : ∀ x : Word, slice (x &&& mask) lo len = slice x lo len := fun x => by
    rw [slice, BitVec.extractLsb'_and, ← slice, ← slice, hcovers, BitVec.and_allOnes]
  rw [← hslice w, h, hslice w']

section ReadBits

variable {w w' : Word}

/-- The bits a shape reads decide its operand text. -/
theorem operandText_eq_of_and_eq {sh : Shape} {m : String} (h : w &&& readMask sh m = w' &&& readMask sh m) (lc : Nat) :
    operandText sh w lc = operandText sh w' lc := by
  cases sh with
  | threeRegister =>
    simp only [readMask] at h
    have hrd : rdField w = rdField w' := slice_eq_of_and_eq h 0 5 (by decide)
    have hrn : rnField w = rnField w' := slice_eq_of_and_eq h 5 5 (by decide)
    have hrm : rmField w = rmField w' := slice_eq_of_and_eq h 16 5 (by decide)
    simp only [operandText, hrd, hrn, hrm]
  | singleRegister =>
    simp only [readMask] at h
    have hrn : rnField w = rnField w' := slice_eq_of_and_eq h 5 5 (by decide)
    simp only [operandText, hrn]
  | dualRegisterNoOffset =>
    simp only [readMask] at h
    have hrn : rnField w = rnField w' := slice_eq_of_and_eq h 5 5 (by decide)
    have hrd : rdField w = rdField w' := slice_eq_of_and_eq h 0 5 (by decide)
    simp only [operandText, hrn, hrd]
  | shiftImmediate =>
    simp only [readMask] at h
    have hrd : rdField w = rdField w' := slice_eq_of_and_eq h 0 5 (by decide)
    have hrn : rnField w = rnField w' := slice_eq_of_and_eq h 5 5 (by decide)
    have hshamt : shamtField w = shamtField w' := slice_eq_of_and_eq h 10 6 (by decide)
    simp only [operandText, hrd, hrn, hshamt]
  | memoryOffset =>
    simp only [readMask] at h
    have hrt : rtField w = rtField w' := slice_eq_of_and_eq h 0 5 (by decide)
    have hrn : rnField w = rnField w' := slice_eq_of_and_eq h 5 5 (by decide)
    have hdtoff : dtoffField w = dtoffField w' := slice_eq_of_and_eq h 12 9 (by decide)
    simp only [operandText, hrt, hrn, hdtoff]
  | aluImmediate =>
    simp only [readMask] at h
    have hrd : rdField w = rdField w' := slice_eq_of_and_eq h 0 5 (by decide)
    have hrn : rnField w = rnField w' := slice_eq_of_and_eq h 5 5 (by decide)
    have himm : immField w = immField w' := slice_eq_of_and_eq h 10 12 (by decide)
    simp only [operandText, hrd, hrn, himm]
  | conditionalBranch =>
    have hcovers : slice (readMask .conditionalBranch m) 5 19 = BitVec.allOnes 19 := by
      rw [readMask]; split <;> decide
    have hcboff : cboffField w = cboffField w' := slice_eq_of_and_eq h 5 19 hcovers
    simp only [operandText, hcboff]
  | unconditionalBranch =>
    simp only [readMask] at h
    have hboff : boffField w = boffField w' := slice_eq_of_and_eq h 0 26 (by decide)
    simp only [operandText, hboff]
  | noOperands => rfl

/-- The bits a hit's shape reads decide its mnemonic text: in every format `B.` has a shape that reads bits 3:0. -/
theorem mnemText_eq_of_and_eq {m : String} {fmt : Format}
    (h : w &&& readMask (shapeOf m fmt) m = w' &&& readMask (shapeOf m fmt) m) (cond : CondRom) :
    mnemText cond m w = mnemText cond m w' := by
  by_cases hm : m = "B."
  · subst hm
    have hcovers : slice (readMask (shapeOf "B." fmt) "B.") 0 4 = BitVec.allOnes 4 := by cases fmt <;> decide
    have hcond : condField w = condField w' := slice_eq_of_and_eq h 0 4 hcovers
    rw [mnemText, mnemText, hcond]
  · rw [mnemText, mnemText, if_neg hm, if_neg hm]

end ReadBits

/-- Settles O38: the line is formed of the mnemonic text and the operand text. -/
theorem unreadBitsDoNotChangeTheLine : Obligations.UnreadBitsDoNotChangeTheLine := by
  intro rom cond lc w w' m fmt hw hw' hread
  have hline := decodeTransaction_of_hit hw cond lc
  rw [mnemText_eq_of_and_eq hread, operandText_eq_of_and_eq hread] at hline
  exact ⟨_, _, _, hline, decodeTransaction_of_hit hw' cond lc⟩

/-! ## The device's step is the stream machine of the spec's pseudocode (R102, R108) -/

/-- The instruction of a row's word commits the record that R102 forms of the word. -/
def RowExecutes (w : Word) (s : State) (e : OpcodeEntry) : Prop :=
  ∃ i, instrOf e.mnem w = some i ∧
    exec i s = decodeInstr e.mnem (formatOf e.width) (shapeOf e.mnem (formatOf e.width)) (mnemText device.condRom e.mnem w)
      (operandText (shapeOf e.mnem (formatOf e.width)) w s.lc) i s

theorem device_rows_execute (w : Word) (s : State) : ∀ e ∈ device.opcodeRom, RowExecutes w s e := by
  simp only [device, defaultOpcodeRom, romRowsR, romRowsI, romRowsCB, romRowsB, List.forall_mem_append, List.forall_mem_cons,
    List.not_mem_nil, false_implies, implies_true, and_true]
  and_intros
  all_goals exact ⟨_, rfl, rfl⟩

/-- A word that classifies is answered by its record and line and the commit (R102). -/
theorem runWord_of_hit {w : Word} {m : String} {fmt : Format} (h : classify device.opcodeRom w = some (m, fmt)) (s : State) :
    runWord w s = commitDecoded device
      (recordOf m fmt (shapeOf m fmt) w s.lc (mnemText device.condRom m w) (operandText (shapeOf m fmt) w s.lc)) s := by
  obtain ⟨e, he, -, rfl, rfl⟩ := classify_mem h
  obtain ⟨i, hi, hexec⟩ := device_rows_execute w s e he
  have hdecode : decodeWord w = some i := (decodeWord_of_classify h).trans hi
  obtain ⟨-, hencode⟩ := encodingTheDecodedGivesTheWord w i hdecode
  rw [runWord, hdecode]
  exact hexec.trans (by rw [decodeInstr, hencode])

theorem runWord_of_miss {w : Word} (h : classify device.opcodeRom w = none) (s : State) :
    runWord w s = .next (s.emit (errorOutputs w)) := by
  rw [runWord, (decodeWord_eq_none_iff w).mpr h]
  rfl

/-- A word's transaction in a running state is the pseudocode's. -/
theorem runWord_eq_stepWith (w : Word) (lc : Nat) (rest : List Event) (output : List Output) :
    runWord w ⟨lc, .running, rest, output⟩ = stepWith device ⟨lc, .running, .word w :: rest, output⟩ := by
  cases h : classify device.opcodeRom w with
  | none =>
    rw [runWord_of_miss h]
    simp only [stepWith, streamStep, decodeTransaction_of_miss h]
    rfl
  | some hit =>
    obtain ⟨m, fmt⟩ := hit
    rw [runWord_of_hit h]
    simp only [stepWith, streamStep, decodeTransaction_of_hit h]
    rfl

/-- Settles O40: by the event and the phase; only a word in a running state has more to it than the two definitions. -/
theorem stepIsTheStreamMachineOfTheDevice : Obligations.StepIsTheStreamMachineOfTheDevice := by
  intro ⟨lc, phase, input, output⟩
  have hsilent : ∀ lc' phase' rest, Host.Outcome.next (⟨lc', phase', rest, output⟩ : State) =
      (.next ⟨lc', phase', rest, output ++ []⟩ : Host.Outcome State Fault Refusal) := by simp
  match input, phase with
  | [], _ => rfl
  | .word w :: rest, .running => exact runWord_eq_stepWith w lc rest output
  | .word _ :: _, .done => rfl
  | .endOfInput :: rest, .running => exact hsilent lc .done rest
  | .endOfInput :: _, .done => rfl
  | .reset :: rest, .running => exact hsilent 1 .running rest
  | .reset :: rest, .done => exact hsilent 1 .running rest

end Sys2Proof.Machine

namespace Sys2Proof.Machine

/-! ## What a step answers to a word that hits, and where there is none (R100, R102, R109) -/

/-- The record that R102 forms of a word whose hit is `(m, fmt)`, at the label `lc`. -/
def hitRecord (cond : CondRom) (m : String) (fmt : Format) (w : Word) (lc : Nat) : DecodedRecord :=
  recordOf m fmt (shapeOf m fmt) w lc (mnemText cond m w) (operandText (shapeOf m fmt) w lc)

theorem step_of_no_event {s : State} (hin : s.input = []) : step s = .fault .noEvent := by
  simp only [step, runNext, hin]

section StepAnswers

variable {s : State} {rest : List Event}

theorem step_of_done {ev : Event} (hp : s.phase = .done) (hin : s.input = ev :: rest) (hev : ev ≠ .reset) :
    step s = .fault .endOfRun := by
  cases ev with
  | word w => simp only [step, runNext, hin, runEvent, setInput_phase, hp]
  | endOfInput => simp only [step, runNext, hin, runEvent, setInput_phase, hp]
  | reset => exact absurd rfl hev

theorem step_of_word {w : Word} (hp : s.phase = .running) (hin : s.input = .word w :: rest) :
    step s = runWord w (s.setInput rest) := by
  simp only [step, runNext, hin, runEvent, setInput_phase, hp]

/-- `step_of_hit` with the record named. -/
theorem step_of_classify {w : Word} {m : String} {fmt : Format} (hp : s.phase = .running) (hin : s.input = .word w :: rest)
    (hhit : classify device.opcodeRom w = some (m, fmt)) :
    step s = .next (((s.setInput rest).emit (decodedOutputs (hitRecord device.condRom m fmt w s.lc))).setLc (s.lc + 1)) :=
  (step_of_word hp hin).trans (runWord_of_hit hhit _)

theorem step_of_miss {w : Word} (hp : s.phase = .running) (hin : s.input = .word w :: rest)
    (hmiss : classify device.opcodeRom w = none) : step s = .next ((s.setInput rest).emit (errorOutputs w)) :=
  step_of_illegal hp hin ((decodeWord_eq_none_iff w).mpr hmiss)

end StepAnswers

/-- Settles O3: `step_of_endOfInput` with the state written out. -/
theorem endOfInputMovesToDone : Obligations.EndOfInputMovesToDone :=
  fun _ _ hp hin => step_of_endOfInput hp hin

/-- Settles O4: a `Reset` is taken in any phase, and no other event in Done. -/
theorem doneTakesOnlyReset : Obligations.DoneTakesOnlyReset := by
  intro s ev rest hp hin
  refine ⟨step_of_done hp hin, ?_⟩
  rintro rfl
  exact step_of_reset hin

/-- Settles O5: `step_of_no_event`. -/
theorem noEventNoStep : Obligations.NoEventNoStep := fun _ => step_of_no_event

/-- Settles O6: `step_of_decoded` with the state written out. -/
theorem stepRunsDecodedInstruction : Obligations.StepRunsDecodedInstruction :=
  fun _ _ _ _ hp hin hd => step_of_decoded hp hin hd

/-! ## The line and the record of a decoded word (R104 to R107) -/

/-- What follows the label in a record's line (R104). -/
def DecodedRecord.text (d : DecodedRecord) : String := d.mnemtext ++ d.operandtext

theorem lineOf_eq_label_text (d : DecodedRecord) : lineOf d = "L" ++ dec d.label ++ ": " ++ d.text :=
  String.append_assoc

/-- Settles O10: a hit commits the next label after its line is formed, a miss leaves the label. -/
theorem labelAdvancesExactlyOnDecode : Obligations.LabelAdvancesExactlyOnDecode := by
  intro s w rest hp hin
  cases hw : classify device.opcodeRom w with
  | none => exact ⟨_, step_of_miss hp hin hw, fun h => absurd rfl h, fun _ => rfl⟩
  | some hit =>
    obtain ⟨d, hlabel, hstep⟩ := step_of_hit hp hin (Option.isSome_of_eq_some hw)
    have hline : lineOf d = "L" ++ dec s.lc ++ ": " ++ d.text := hlabel ▸ lineOf_eq_label_text d
    exact ⟨_, hstep, fun _ => ⟨rfl, d, d.text, by simp [decodedOutputs, hline]⟩, nofun⟩

theorem targetOf_eq_wordTarget (fmt : Format) (w : Word) (lc : Nat) : targetOf fmt w lc = wordTarget fmt w lc := by
  cases fmt with
  | r | i => rfl
  | cb | b => simp only [targetOf, wordTarget, targetLabel, sext_eq_toInt]; rfl

/-- The record of a word is the one written out by bit numbers and thresholds (R67, R68, R107). -/
theorem recordOf_eq_wordRecord (m : String) (fmt : Format) (sh : Shape) (w : Word) (lc : Nat) (mt ops : String) :
    recordOf m fmt sh w lc mt ops = wordRecord m fmt sh w lc (wordTarget fmt w lc) mt ops := by
  simp only [recordOf, targetOf_eq_wordTarget, sext_eq_ite]
  rfl

/-- Settles O41: the record of the step, written out. -/
theorem decodedWordEmitsItsRecord : Obligations.DecodedWordEmitsItsRecord := by
  intro s w rest m fmt hp hin hhit
  rw [step_of_classify hp hin hhit, hitRecord, decodedOutputs, lineOf_recordOf, recordOf_eq_wordRecord, ← hp]
  rfl

/-- Settles O39: by the shape. -/
theorem onlyBranchTextReadsTheLabel : Obligations.OnlyBranchTextReadsTheLabel := by
  intro sh w
  refine ⟨fun hcond huncond lc lc' => ?_, ?_, ?_⟩
  · cases sh with
    | conditionalBranch => exact absurd rfl hcond
    | unconditionalBranch => exact absurd rfl huncond
    | threeRegister | singleRegister | dualRegisterNoOffset | shiftImmediate | memoryOffset | aluImmediate | noOperands => rfl
  all_goals
    rintro rfl lc
    simp only [operandText, branchText, labelText, targetLabel, ← String.append_assoc]
    rfl

/-! ## The stream law on the device (R110) -/

section SequentialDecode

variable {rom : OpcodeRom} {w : Word} (cond : CondRom) (lc : Nat) (ws : List Word)

theorem sequentialDecode_of_miss (h : classify rom w = none) :
    sequentialDecode rom cond lc (w :: ws) =
      (errorOutputs w ++ (sequentialDecode rom cond lc ws).1, (sequentialDecode rom cond lc ws).2) := by
  simp only [sequentialDecode, decodeTransaction_of_miss h, errorOutputs]

theorem sequentialDecode_of_hit {m : String} {fmt : Format} (h : classify rom w = some (m, fmt)) :
    sequentialDecode rom cond lc (w :: ws) =
      (decodedOutputs (hitRecord cond m fmt w lc) ++ (sequentialDecode rom cond (lc + 1) ws).1,
        (sequentialDecode rom cond (lc + 1) ws).2) := by
  simp only [sequentialDecode, decodeTransaction_of_hit h, decodedOutputs, hitRecord, lineOf_recordOf]

end SequentialDecode

/-- Settles O46: by induction on the words; each step does what the recursion does with its word. -/
theorem streamOfWordsRunsToTheRecursion : Obligations.StreamOfWordsRunsToTheRecursion := by
  intro ws rest
  induction ws with
  | nil =>
    intro s hp hin
    exact congrArg Host.Outcome.next (State.ext_fields rfl hp hin (List.append_nil _).symm)
  | cons w ws ih =>
    intro s hp hin
    have hword : s.input = .word w :: (ws.map .word ++ rest) := hin
    cases hw : classify device.opcodeRom w with
    | none =>
      have hlater := ih ((s.setInput (ws.map .word ++ rest)).emit (errorOutputs w)) hp rfl
      rw [List.length_cons, core_run_of_next (step_of_miss hp hword hw), hlater, sequentialDecode_of_miss _ _ _ hw]
      simp
    | some hit =>
      obtain ⟨m, fmt⟩ := hit
      have hlater := ih (((s.setInput (ws.map .word ++ rest)).emit
        (decodedOutputs (hitRecord device.condRom m fmt w s.lc))).setLc (s.lc + 1)) hp rfl
      rw [List.length_cons, core_run_of_next (step_of_classify hp hword hw), hlater, sequentialDecode_of_hit _ _ _ hw]
      simp

/-! ## The lines of a run over words (R111, R222) -/

theorem instructionLines_decodedOutputs_append (d : DecodedRecord) (items : List Output) :
    instructionLines (decodedOutputs d ++ items) = lineOf d :: instructionLines items := rfl

theorem instructionLines_errorOutputs_append (w : Word) (items : List Output) :
    instructionLines (errorOutputs w ++ items) = instructionLines items := rfl

theorem diagnosticLines_decodedOutputs_append (d : DecodedRecord) (items : List Output) :
    diagnosticLines (decodedOutputs d ++ items) = diagnosticLines items := rfl

theorem diagnosticLines_errorOutputs_append (w : Word) (items : List Output) :
    diagnosticLines (errorOutputs w ++ items) = diagnostic :: diagnosticLines items := rfl

theorem decodableCount_le_length (rom : OpcodeRom) (ws : List Word) : decodableCount rom ws ≤ ws.length :=
  List.countP_le_length

section Lines

variable {lc : Nat} {ws : List Word} {items : List Output}

/-- The instruction lines are the lines of the records. -/
theorem Transcript.instructionLines_eq (h : Transcript lc ws items) :
    instructionLines items = (recordsOf items).map lineOf := by
  induction h with
  | nil => rfl
  | decoded d hit label later ih => rw [instructionLines_decodedOutputs_append, ih]; rfl
  | illegal miss later ih => rw [instructionLines_errorOutputs_append, ih]; rfl

/-- There is one diagnostic for every word that does not decode. -/
theorem Transcript.diagnosticLines_eq (h : Transcript lc ws items) :
    diagnosticLines items = List.replicate (ws.length - decodableCount device.opcodeRom ws) diagnostic := by
  induction h with
  | nil => rfl
  | @decoded _ _ ws _ d hit label later ih =>
    rw [diagnosticLines_decodedOutputs_append, ih, decodableCount_cons_of_hit ws hit, List.length_cons, Nat.add_sub_add_right]
  | @illegal _ _ ws _ miss later ih =>
    rw [diagnosticLines_errorOutputs_append, ih, decodableCount_cons_of_miss ws miss, List.length_cons,
      Nat.sub_add_comm (decodableCount_le_length _ ws), List.replicate_succ]

theorem Transcript.recordsOf_length (h : Transcript lc ws items) :
    (recordsOf items).length = decodableCount device.opcodeRom ws := by
  simpa [labelsOf] using congrArg List.length h.labelsOf_eq

end Lines

/-- The lines of records are their labels with their texts, one by one. -/
theorem map_lineOf_eq_zipWith (ds : List DecodedRecord) :
    ds.map lineOf = List.zipWith (fun n text => "L" ++ dec (n : Nat) ++ ": " ++ text) (ds.map DecodedRecord.label)
      (ds.map DecodedRecord.text) := by
  rw [List.zipWith_map, List.zipWith_self, List.map_congr_left fun d _ => lineOf_eq_label_text d]

/-- Settles O47: the transcript of the words after the `Reset`, and its readings. -/
theorem instructionLinesAreLabelledInOrder : Obligations.InstructionLinesAreLabelledInOrder := by
  intro ws rest s hin
  obtain ⟨items, htr, hrun⟩ := core_run_reset_words ws 0 hin
  refine ⟨items, (recordsOf items).map DecodedRecord.text, hrun, htr.labelsOf_eq, ?_, ?_, htr.diagnosticLines_eq,
    htr.linesOf_length⟩
  · rw [List.length_map, htr.recordsOf_length]
  · rw [htr.instructionLines_eq, map_lineOf_eq_zipWith, ← htr.labelsOf_eq]
    rfl

end Sys2Proof.Machine

namespace Sys2Proof.Machine

/-! ## What the R-format instructions emit (R120 to R142) -/

/-- Every meaning is one call of `decodeInstr`, which answers the record of the instruction's word and the line (R104 to R107). -/
theorem answersLine_of_exec {i : Instr} {s : State} {m : String} {fmt : Format} {sh : Shape} {mt ops : String}
    (h : exec i s = decodeInstr m fmt sh mt ops i s) :
    AnswersLine i s m fmt sh (wordTarget fmt (encode i) s.lc) mt ops := by
  rw [AnswersLine, h, decodeInstr_eq, decodedOutputs, lineOf_recordOf, recordOf_eq_wordRecord]
  rfl

/-- An immediate after a comma (R87). -/
theorem append_comma_immText (t : String) (v : Int) : t ++ ", " ++ immText v = t ++ ", #" ++ dec v := by
  rw [immText, String.append_assoc, ← String.append_assoc (s₁ := ", "), ← String.append_assoc]
  rfl

theorem shiftImmediateText_eq (rd rn : RegCode) (shamt : Nat) :
    shiftImmediateText rd rn shamt = " " ++ regname rd ++ ", " ++ regname rn ++ ", #" ++ dec shamt :=
  append_comma_immText _ _

theorem memoryOffsetText_eq (rt rn : RegCode) (offset : Int) :
    memoryOffsetText rt rn offset = " " ++ regname rt ++ ", [" ++ regname rn ++ ", #" ++ dec offset ++ "]" :=
  congrArg (· ++ "]") (append_comma_immText _ _)

/-- Settles O12: seven meanings with one operand text. -/
theorem threeRegisterInstructionsRender : Obligations.ThreeRegisterInstructionsRender := by
  intro rd rn rm u s
  and_intros
  all_goals exact answersLine_of_exec rfl

/-- Settles O13: an R-format record has no target. -/
theorem singleRegisterInstructionRenders : Obligations.SingleRegisterInstructionRenders :=
  fun _ _ _ _ => answersLine_of_exec rfl

/-- Settles O14: the operand text puts Rn first. -/
theorem dualRegisterInstructionRenders : Obligations.DualRegisterInstructionRenders :=
  fun _ _ _ _ => answersLine_of_exec rfl

/-- Settles O15: the text is `shiftImmediateText_eq`'s. -/
theorem shiftImmediateInstructionsRender : Obligations.ShiftImmediateInstructionsRender := by
  intro rd rn shamt u s
  rw [← shiftImmediateText_eq]
  exact ⟨answersLine_of_exec rfl, answersLine_of_exec rfl⟩

/-- Settles O16: the text is `memoryOffsetText_eq`'s. -/
theorem memoryOffsetInstructionsRender : Obligations.MemoryOffsetInstructionsRender := by
  intro rt rn offset u s
  rw [← memoryOffsetText_eq]
  exact ⟨answersLine_of_exec rfl, answersLine_of_exec rfl⟩

/-- Settles O17: the operand text is empty. -/
theorem noOperandsInstructionsRender : Obligations.NoOperandsInstructionsRender :=
  fun _ _ => ⟨answersLine_of_exec rfl, answersLine_of_exec rfl, answersLine_of_exec rfl⟩

/-! ## Every instruction completes (R120, R160, R180, R200) -/

theorem isRow_iff {m : String} {fmt : Format} :
    isRow m fmt = true ↔ ∃ e ∈ device.opcodeRom, e.mnem = m ∧ formatOf e.width = fmt := by
  simp only [isRow, List.any_eq_true, Bool.and_eq_true, beq_iff_eq]

/-- Settles O21: `exec_cases` fixes the next state and its row. -/
theorem everyInstructionCompletesWithItsFrame : Obligations.EveryInstructionCompletesWithItsFrame := by
  intro i s
  obtain ⟨m, fmt, mt, ops, hrow, hexec⟩ := exec_cases i s
  exact ⟨_, recordOf m fmt (shapeOf m fmt) (encode i) s.lc mt ops, hexec, rfl, rfl, rfl, rfl, rfl, rfl, isRow_iff.mp hrow⟩

/-! ## HALT and the word after it (R109, R142) -/

/-- A running device takes a word in any case, keeps running, and puts out a line with the own label if the word decodes. -/
theorem step_of_word_answers {s : State} {w : Word} {rest : List Event} (hp : s.phase = .running)
    (hin : s.input = .word w :: rest) :
    ∃ t, step s = .next t ∧ t.phase = .running ∧ t.input = rest ∧
      (decodeWord w ≠ none → ∃ d text, t.output = s.output ++ [.decoded d, .line ("L" ++ dec s.lc ++ ": " ++ text)]) := by
  cases hd : decodeWord w with
  | none => exact ⟨_, step_of_illegal hp hin hd, hp, rfl, fun h => absurd rfl h⟩
  | some i =>
    obtain ⟨t, d, hexec, -, hphase, hinput, hout, -⟩ := everyInstructionCompletesWithItsFrame i (s.setInput rest)
    refine ⟨t, (step_of_decoded hp hin hd).trans hexec, hphase.trans hp, hinput, fun _ => ⟨d, d.text, ?_⟩⟩
    rw [hout, String.append_assoc]
    rfl

/-- Settles O22: the first word is decoded to HALT, whose step leaves the phase; so the next word has a step. -/
theorem haltDoesNotEndTheRun : Obligations.HaltDoesNotEndTheRun := by
  intro s w w' rest hp hin hop
  have hd : decodeWord w = some (.halt (slice w 0 21)) := decodeWord_of_op11 (m := "HALT") (by decide) hop
  obtain ⟨-, -, hhalt⟩ := noOperandsInstructionsRender (slice w 0 21) (s.setInput (.word w' :: rest))
  exact ⟨_, _, (step_of_decoded hp hin hd).trans hhalt, hp, rfl, rfl, by rw [String.append_empty]; rfl,
    step_of_word_answers hp rfl⟩

end Sys2Proof.Machine

namespace Sys2Proof.Machine

/-! ## What the I-format instructions emit (R160 to R167) -/

theorem aluImmediateText_eq (rd rn : RegCode) (imm : Int) :
    aluImmediateText rd rn imm = " " ++ regname rd ++ ", " ++ regname rn ++ ", #" ++ dec imm :=
  append_comma_immText _ _

/-- Settles O18: six meanings with one operand text, `aluImmediateText_eq`'s. -/
theorem aluImmediateInstructionsRender : Obligations.AluImmediateInstructionsRender := by
  intro rd rn imm s
  rw [← aluImmediateText_eq]
  and_intros
  all_goals exact answersLine_of_exec rfl

end Sys2Proof.Machine

namespace Sys2Proof.Machine

/-! ## What the CB-format instructions emit (R180 to R185) -/

theorem branchText_eq (lc : Nat) (offset : Int) : branchText lc offset = " L" ++ dec (lc + offset) :=
  (String.append_assoc (s₁ := " ")).symm

/-- The condition-code ROM read by address; no address is outside it (R48). -/
theorem condSuffix_eq_getD (rom : CondRom) (c : CondCode) : condSuffix rom c = rom.toList.getD c.toNat "" := by
  have hlt : c.toNat < rom.toList.length := by rw [Vector.length_toList]; exact c.isLt
  rw [List.getD_eq_getElem _ _ hlt, Vector.getElem_toList]
  rfl

/-- The offset field gives an offset of its range back, so the record's target is the one that was encoded (R65, R106). -/
theorem wordTarget_packCB (op : BitVec 8) (low : BitVec 5) (lc : Nat) {offset : Int} (h : fitsSigned 19 offset = true) :
    wordTarget .cb (packCB op offset low) lc = some (lc + offset) := by
  rw [← targetOf_eq_wordTarget, targetOf, Laws.RoundTrip.packCB_cboff, sext_ofInt (by decide) offset h, targetLabel]

/-- What a conditional branch answers, whatever its opcode, its low bits and its mnemonic text. -/
theorem answersLine_of_exec_packCB {i : Instr} {s : State} {m mt : String} {op : BitVec 8} {low : BitVec 5} {offset : Int}
    (hfits : fitsSigned 19 offset = true) (henc : encode i = packCB op offset low)
    (hexec : exec i s = decodeInstr m .cb .conditionalBranch mt (branchText s.lc offset) i s) :
    AnswersLine i s m .cb .conditionalBranch (some (s.lc + offset)) mt (" L" ++ dec (s.lc + offset)) := by
  rw [← branchText_eq, ← wordTarget_packCB op low s.lc hfits, ← henc]
  exact answersLine_of_exec hexec

/-- Settles O19: three meanings with one target and one operand text; the suffix is `condSuffix_eq_getD`'s. -/
theorem conditionalBranchInstructionsRender : Obligations.ConditionalBranchInstructionsRender := by
  intro offset u c u1 s hlow hhigh
  have hfits : fitsSigned 19 offset = true := by
    rw [fitsSigned, Bool.and_eq_true, decide_eq_true_eq, decide_eq_true_eq]
    omega
  have hexec : exec (.bCond c offset u1) s = decodeInstr "B." .cb .conditionalBranch
      ("B." ++ device.condRom.toList.getD c.toNat "") (branchText s.lc offset) (.bCond c offset u1) s := by
    rw [← condSuffix_eq_getD]
    rfl
  exact ⟨answersLine_of_exec_packCB hfits rfl rfl, answersLine_of_exec_packCB hfits rfl rfl,
    answersLine_of_exec_packCB hfits rfl hexec⟩

end Sys2Proof.Machine

namespace Sys2Proof.Machine

/-! ## What the B-format instructions emit (R200 to R203) -/

/-- The offset field gives an offset of its range back, so the record's target is the one that was encoded (R66, R106). -/
theorem wordTarget_packB (op : BitVec 6) (lc : Nat) {offset : Int} (h : fitsSigned 26 offset = true) :
    wordTarget .b (packB op offset) lc = some (lc + offset) := by
  rw [← targetOf_eq_wordTarget, targetOf, Laws.RoundTrip.packB_boff, sext_ofInt (by decide) offset h, targetLabel]

/-- What an unconditional branch answers, whatever its opcode and its mnemonic. -/
theorem answersLine_of_exec_packB {i : Instr} {s : State} {m : String} {op : BitVec 6} {offset : Int}
    (hfits : fitsSigned 26 offset = true) (henc : encode i = packB op offset)
    (hexec : exec i s = decodeInstr m .b .unconditionalBranch m (branchText s.lc offset) i s) :
    AnswersLine i s m .b .unconditionalBranch (some (s.lc + offset)) m (" L" ++ dec (s.lc + offset)) := by
  rw [← branchText_eq, ← wordTarget_packB op s.lc hfits, ← henc]
  exact answersLine_of_exec hexec

/-- Settles O20: two meanings with one target and one operand text. -/
theorem unconditionalBranchInstructionsRender : Obligations.UnconditionalBranchInstructionsRender := by
  intro offset s hlow hhigh
  have hfits : fitsSigned 26 offset = true := by
    rw [fitsSigned, Bool.and_eq_true, decide_eq_true_eq, decide_eq_true_eq]
    omega
  exact ⟨answersLine_of_exec_packB hfits rfl rfl, answersLine_of_exec_packB hfits rfl rfl⟩

end Sys2Proof.Machine

namespace Sys2Proof.Machine

/-! ## DecodeError (R220 to R222) -/

/-- Settles O8: `step_of_miss` and `step_of_hit` with the states written out. -/
theorem decodeErrorExactlyOnIllegalWords : Obligations.DecodeErrorExactlyOnIllegalWords := by
  intro s w rest hp hin
  refine ⟨fun hmiss => ?_, fun hhit => ?_⟩
  · exact (step_of_miss hp hin hmiss).trans (congrArg _ (State.ext_fields rfl hp rfl rfl))
  · obtain ⟨d, -, hstep⟩ := step_of_hit hp hin (Option.isSome_iff_ne_none.mpr hhit)
    exact ⟨d, hstep.trans (congrArg _ (State.ext_fields rfl hp rfl rfl))⟩

/-- Settles O9: a transaction fails on a miss only, whose result is `decodeTransaction_of_miss`'s. -/
theorem diagnosticIsOneFixedLine : Obligations.DiagnosticIsOneFixedLine := by
  refine ⟨rfl, fun rom cond lc w k w' line lc' hfail => ?_⟩
  cases hw : classify rom w with
  | none =>
    cases (decodeTransaction_of_miss hw cond lc).symm.trans hfail
    exact ⟨rfl, rfl, rfl, rfl⟩
  | some hit => cases (decodeTransaction_of_hit hw cond lc).symm.trans hfail

/-- Settles O11: the numbers `errorCode` gives. -/
theorem errorKindNumbers : Obligations.ErrorKindNumbers := ⟨rfl, rfl⟩

/-! ## Parallel decode, sequential commit (R230, R245) -/

section ParallelDecode

variable {rom : OpcodeRom} {w : Word} (cond : CondRom)

theorem labelFree_of_miss (h : classify rom w = none) : labelFree rom cond w = (w, none) := by
  simp only [labelFree, h]

/-- The label-free part of a word that hits, finished at any label, is the record of R102 at that label: the text of a branch is
formed of its offset then, and no other operand text reads the label (R103). -/
theorem labelFree_of_hit {m : String} {fmt : Format} (h : classify rom w = some (m, fmt)) :
    ∃ p, labelFree rom cond w = (w, some p) ∧ ∀ lc, finishRecord p lc = hitRecord cond m fmt w lc := by
  simp only [labelFree, h]
  refine ⟨_, rfl, fun lc => ?_⟩
  simp only [finishRecord, hitRecord]
  cases shapeOf m fmt with
  | conditionalBranch | unconditionalBranch => rfl
  | threeRegister | singleRegister | dualRegisterNoOffset | shiftImmediate | memoryOffset | aluImmediate | noOperands => rfl

variable (lc : Nat) (ws : List Word)

theorem parallelDecode_of_miss (h : classify rom w = none) :
    parallelDecode rom cond lc (w :: ws) =
      (errorOutputs w ++ (parallelDecode rom cond lc ws).1, (parallelDecode rom cond lc ws).2) := by
  simp only [parallelDecode, List.map_cons, labelFree_of_miss cond h, commitInOrder]

theorem parallelDecode_of_hit {m : String} {fmt : Format} (h : classify rom w = some (m, fmt)) :
    parallelDecode rom cond lc (w :: ws) =
      (decodedOutputs (hitRecord cond m fmt w lc) ++ (parallelDecode rom cond (lc + 1) ws).1,
        (parallelDecode rom cond (lc + 1) ws).2) := by
  obtain ⟨p, hfree, hfinish⟩ := labelFree_of_hit cond h
  simp only [parallelDecode, List.map_cons, hfree, commitInOrder, hfinish]

end ParallelDecode

/-- Settles O48: by induction on the words; the two decodes have the same equations. -/
theorem parallelDecodeEqualsSequential : Obligations.ParallelDecodeEqualsSequential := by
  intro rom cond lc ws
  induction ws generalizing lc with
  | nil => rfl
  | cons w ws ih =>
    cases hw : classify rom w with
    | none => rw [parallelDecode_of_miss cond lc ws hw, sequentialDecode_of_miss cond lc ws hw, ih]
    | some hit => rw [parallelDecode_of_hit cond lc ws hw, sequentialDecode_of_hit cond lc ws hw, ih]

end Sys2Proof.Machine

namespace Sys2Proof.Machine

/-! ## Reset (R240, R241) -/

/-- Settles O1: the fields that `State.reset` gives. -/
theorem resetStateHasLabelOneAndRuns : Obligations.ResetStateHasLabelOneAndRuns := ⟨rfl, rfl, rfl, rfl⟩

/-- Settles O2: `step_of_reset` with the state written out; the event is taken in either phase. -/
theorem resetEventRestartsLabels : Obligations.ResetEventRestartsLabels := fun _ _ hin => step_of_reset hin

/-- Settles O45: label 1 is positive, and an output with nothing in it is a sequence of whole transactions. -/
theorem resetMeetsRunInvariant : Obligations.ResetMeetsRunInvariant := by
  obtain ⟨hlc, -, -, hout⟩ := resetStateHasLabelOneAndRuns
  exact State.ok_iff.mpr ⟨hlc.ge, by rw [hout, outputOk]⟩

end Sys2Proof.Machine

namespace Sys2Proof

/-! ## Example words (R62 to R69) -/

/-- A word put together from an instruction's fields decodes to that instruction. -/
theorem decodeWord_of_encode_eq {w : Word} {i : Instr} (hwf : i.wf = true) (henc : encode i = w) : decodeWord w = some i :=
  henc ▸ decodingTheEncodingGivesTheInstruction i hwf

/-- Settles O33: each legal word is the encoding of its instruction, and 0x00A00000 matches none of the 27 rows. -/
theorem exampleWordsDecode : Obligations.ExampleWordsDecode := by
  have hillegal : decodeWord 0x00A00000 = none := (decodeWord_eq_none_iff_no_row _).mpr (by decide)
  refine ⟨?_, ?_, ?_, ?_, ?_, ?_, ?_, ?_, ?_, ?_, hillegal⟩
  all_goals exact decodeWord_of_encode_eq (by decide) (by decide)

end Sys2Proof

namespace Sys2Proof.Machine

/-! ## The stream machine of any configuration: what it answers for a word and a reset (R7, R102, R108) -/

section StreamAnswers

variable {c : Config} {s : State} {rest : List Event}

theorem stepWith_of_reset (hin : s.input = .reset :: rest) :
    stepWith c s = .next (((s.setInput rest).setLc 1).setPhase .running) := by
  simp only [stepWith, hin, streamStep]
  exact congrArg _ (State.ext_fields rfl rfl rfl (List.append_nil _))

variable {w : Word} (hp : s.phase = .running) (hin : s.input = .word w :: rest)
include hp hin

theorem stepWith_of_miss (hmiss : classify c.opcodeRom w = none) :
    stepWith c s = .next ((s.setInput rest).emit (errorOutputs w)) := by
  simp only [stepWith, hin, hp, streamStep, decodeTransaction_of_miss hmiss]
  exact congrArg _ (State.ext_fields rfl hp.symm rfl rfl)

/-- A word that hits is answered by the commit of R102's record, which the counter's width may refuse (D8). -/
theorem stepWith_of_hit {m : String} {fmt : Format} (hhit : classify c.opcodeRom w = some (m, fmt)) :
    stepWith c s = commitDecoded c (hitRecord c.condRom m fmt w s.lc) (s.setInput rest) := by
  rw [commitDecoded_eq, setInput_lc]
  simp only [stepWith, hin, hp, streamStep, decodeTransaction_of_hit hhit]
  cases labelFits c.labelW (s.lc + 1) with
  | false => rfl
  | true => exact congrArg Host.Outcome.next (State.ext_fields rfl hp.symm rfl rfl)

theorem stepWith_of_fitting_hit {m : String} {fmt : Format} (hhit : classify c.opcodeRom w = some (m, fmt))
    (hfits : labelFits c.labelW (s.lc + 1) = true) :
    stepWith c s = .next (((s.setInput rest).emit (decodedOutputs (hitRecord c.condRom m fmt w s.lc))).setLc (s.lc + 1)) :=
  (stepWith_of_hit hp hin hhit).trans (if_pos hfits)

theorem stepWith_of_overflowing_hit {m : String} {fmt : Format} (hhit : classify c.opcodeRom w = some (m, fmt))
    (hfits : labelFits c.labelW (s.lc + 1) = false) : stepWith c s = .refused .labelOverflow :=
  (stepWith_of_hit hp hin hhit).trans (if_neg (Bool.eq_false_iff.mp hfits))

end StreamAnswers

/-! ## The finite label counter (D8) -/

theorem labelFits_some_iff {b v : Nat} : labelFits (some b) v = true ↔ v < 2 ^ b := decide_eq_true_iff

theorem labelFits_some_eq_false_iff {b v : Nat} : labelFits (some b) v = false ↔ 2 ^ b ≤ v :=
  decide_eq_false_iff_not.trans Nat.not_lt

/-- Settles O49: a hit is answered exactly where its commit fits, and a miss commits nothing. -/
theorem finiteCounterRefusesExactlyOnOverflow : Obligations.FiniteCounterRefusesExactlyOnOverflow := by
  intro c b s w rest hb hp hin
  refine ⟨fun hhit hover => ?_, fun hhit hfits => ?_, fun hmiss => ⟨_, stepWith_of_miss hp hin hmiss, rfl, rfl⟩⟩
  · obtain ⟨_, hclass⟩ := Option.ne_none_iff_exists'.mp hhit
    exact stepWith_of_overflowing_hit hp hin hclass (hb ▸ labelFits_some_eq_false_iff.mpr hover)
  · obtain ⟨_, hclass⟩ := Option.ne_none_iff_exists'.mp hhit
    exact ⟨_, stepWith_of_fitting_hit hp hin hclass (hb ▸ labelFits_some_iff.mpr hfits), rfl, rfl⟩

/-- The state a run over the words `ws` from `s` ends in where no commit is refused (R110): it reads the two ROMs and not the
counter's width. -/
def afterWords (c : Config) (ws : List Word) (rest : List Event) (s : State) : State where
  lc     := s.lc + decodableCount c.opcodeRom ws
  phase  := .running
  input  := rest
  output := s.output ++ (sequentialDecode c.opcodeRom c.condRom s.lc ws).1

/-- A counter that holds every label up to the last one committed takes all the words, one step each. -/
theorem coreWith_run_words {c : Config} (ws : List Word) {rest : List Event} {s : State} (hp : s.phase = .running)
    (hin : s.input = ws.map .word ++ rest)
    (hfits : ∀ v ≤ s.lc + decodableCount c.opcodeRom ws, labelFits c.labelW v = true) :
    Host.Core.run (coreWith c) ws.length s = .next (afterWords c ws rest s) := by
  induction ws generalizing s with
  | nil => exact congrArg Host.Outcome.next (State.ext_fields rfl hp hin (List.append_nil _).symm)
  | cons w ws ih =>
    have hword : s.input = .word w :: (ws.map .word ++ rest) := hin
    cases hw : classify c.opcodeRom w with
    | none =>
      rw [decodableCount_cons_of_miss ws hw] at hfits
      have hlater := ih (s := (s.setInput (ws.map .word ++ rest)).emit (errorOutputs w)) hp rfl hfits
      rw [List.length_cons, coreWith_run_of_next (stepWith_of_miss hp hword hw), hlater]
      simp [afterWords, sequentialDecode_of_miss _ _ _ hw, decodableCount_cons_of_miss ws hw]
    | some hit =>
      obtain ⟨m, fmt⟩ := hit
      have hcount : s.lc + decodableCount c.opcodeRom (w :: ws) = s.lc + 1 + decodableCount c.opcodeRom ws := by
        rw [decodableCount_cons_of_hit ws (Option.isSome_of_eq_some hw)]; omega
      rw [hcount] at hfits
      have hstep := stepWith_of_fitting_hit hp hword hw (hfits _ (Nat.le_add_right _ _))
      have hlater := ih (s := ((s.setInput (ws.map .word ++ rest)).emit
        (decodedOutputs (hitRecord c.condRom m fmt w s.lc))).setLc (s.lc + 1)) hp rfl hfits
      rw [List.length_cons, coreWith_run_of_next hstep, hlater]
      simp [afterWords, sequentialDecode_of_hit _ _ _ hw, hcount]

/-- `coreWith_run_words` after a `Reset` in any state (R240): the words are labelled from 1. -/
theorem coreWith_run_reset_words {c : Config} (ws : List Word) {rest : List Event} {s : State}
    (hin : s.input = .reset :: (ws.map .word ++ rest))
    (hfits : ∀ v ≤ 1 + decodableCount c.opcodeRom ws, labelFits c.labelW v = true) :
    Host.Core.run (coreWith c) (ws.length + 1) s =
      .next (afterWords c ws rest (((s.setInput (ws.map .word ++ rest)).setLc 1).setPhase .running)) := by
  rw [coreWith_run_of_next (stepWith_of_reset hin)]
  exact coreWith_run_words ws rfl rfl hfits

/-- Settles O50: both counters hold the labels up to `2 ^ b - 1`, and the state the run ends in does not read the width. -/
theorem finiteCounterAgreesWithinItsLimit : Obligations.FiniteCounterAgreesWithinItsLimit := by
  intro c b ws rest s hpos hb hin hcount
  have htwo : 2 ≤ 2 ^ b := Nat.le_self_pow (Nat.ne_of_gt hpos) 2
  have hfinite : ∀ v ≤ 1 + decodableCount c.opcodeRom ws, labelFits c.labelW v = true := fun v hv =>
    hb ▸ labelFits_some_iff.mpr (by omega)
  exact ⟨_, coreWith_run_reset_words ws hin hfinite,
    coreWith_run_reset_words (c := { c with labelW := none }) ws hin fun v _ => labelFits_none v, rfl⟩

end Sys2Proof.Machine
